-- ==== Sys2Proof/Word.lean ====
section
/-! DEFINITION. The word types of ECAP: command, response, sample and register words (30_encoding.md R70, R75, R76, R78)
and the 32-bit operand (30_encoding.md R71). Bit 0 is the least significant bit (00_scope.md R11). -/

namespace Sys2Proof

/-- A 64-bit command word, response data word or register value. -/
abbrev Word := BitVec 64

/-- The 32-bit ARG operand: `raw`, `max` or `value`; also the width of `last`, `wm` and `drop` (10_state.md R22, R29). -/
abbrev Arg := BitVec 32

end Sys2Proof
end

