-- ==== Sys2Proof/Config.lean ====
section
/-! DEFINITION. What one ECAP block fixes for its whole life (00_scope.md R8; 10_state.md R37), the sample record
(00_scope.md R19), and the free content of a slot that nothing has written (20_memory.md R53). -/

namespace Sys2Proof

/-- The overflow-tally discipline, ECAP's one build option (00_scope.md R3). -/
inductive OvfMode where
  /-- A monotonic tracker with a per-channel snapshot: the default (41_overflow_tracker.md R133). -/
  | snapshot
  /-- The shared tracker that every edge clears (41_overflow_tracker.md R134). -/
  | sharedReset
deriving DecidableEq, Repr, Inhabited

/-- What a channel is bound to: `tmr_of[c]` and `q_of[c]` (00_scope.md R8, R9). -/
structure Binding where
  tmr : Nat
  q   : Nat
deriving DecidableEq, Repr, Inhabited

/-- The configuration record `Cfg` of 00_scope.md R8.
NUM_CH, NUM_TMR and NUM_Q are the lengths of the three lists. -/
structure Cfg where
  /-- One binding per channel. -/
  chan    : List Binding
  /-- `MOD[t]`, one per timer: one more than the timer's maximum count. -/
  mod     : List Nat
  /-- `CAP[k]`, one per queue, counted in samples (90_conflicts.md C5). -/
  cap     : List Nat
  /-- `W_DUR`, the width of a sample's duration. -/
  wDur    : Nat
  /-- `W_TRK`, the width of each overflow count. -/
  wTrk    : Nat
  /-- `OVF_MODE`. -/
  ovfMode : OvfMode
deriving DecidableEq, Repr, Inhabited

/-- The configuration `State.reset` carries: configuration R of 95_test_vectors.md, two channels on two timers and two
queues, with the defaults of 00_scope.md R8 for W_DUR, W_TRK and OVF_MODE.
DESIGN CHOICE (log entry 1): the spec leaves the counts, bindings, moduli and capacities OPEN. -/
def Cfg.default : Cfg where
  chan    := [⟨0, 0⟩, ⟨1, 1⟩]
  mod     := [0x10000, 1000]
  cap     := [4, 6]
  wDur    := 32
  wTrk    := 64
  ovfMode := .snapshot

/-- An EdgeSample `{dur, lvl}` (00_scope.md R19). `dur` is in counter ticks (90_conflicts.md C4) and below 2^W_DUR;
`lvl` is `true` for HIGH and `false` for LOW. -/
structure Sample where
  dur : Arg
  lvl : Bool
deriving DecidableEq, Repr, Inhabited

/-- The unspecified content of a slot nothing has written, by reset count, queue and slot (10_state.md R29;
20_memory.md R53). A free value: it has no body, so nothing can be proved of it (log entry 6). -/
opaque Config.freeSample : Nat → Nat → Nat → Sample

end Sys2Proof
end

