-- ==== Sys2Proof/Syntax.lean ====
section
/-! DEFINITION. The nine commands of 30_encoding.md R72 (the rows of opcode_table.json), and the registers RDREG reads
(10_state.md R32). -/

namespace Sys2Proof

/-- The operation codes of 30_encoding.md R72. -/
inductive Opcode where
  | edge | ovf | openCh | close | read | clear | setwm | rdreg | chreset
deriving DecidableEq, Repr

/-- The register map of 10_state.md R32. -/
inductive Reg where
  | chStatus | chLast | chOvf | chBind | chSnap
  | qOcc | qWm | qDrop | qCap
  | tmrTrk | tmrMod
deriving DecidableEq, Repr

/-- Does RDREG's ID name a timer for this register, or a channel (10_state.md R32, 43_control.md R185)? -/
def Reg.namesTimer : Reg → Bool
  | .tmrTrk | .tmrMod => true
  | .chStatus | .chLast | .chOvf | .chBind | .chSnap | .qOcc | .qWm | .qDrop | .qCap => false

/-- One ECAP command, one constructor per row of opcode_table.json. `c` is a channel number and `t` a timer number
(the ID field). OPEN's `init_ok` is a draw of the environment and no part of the command word (30_encoding.md R74). -/
inductive Instr where
  /-- EDGE: one captured edge (40_capture_channel.md R106). -/
  | edge (c : Nat) (raw : Arg)
  /-- OVF: one counter overflow (41_overflow_tracker.md R130). -/
  | ovf (t : Nat)
  /-- OPEN: reset the channel and its queue, arm capture (43_control.md R180). -/
  | openCh (c : Nat)
  /-- CLOSE: disarm capture (43_control.md R183). -/
  | close (c : Nat)
  /-- READ: drain up to `max` samples (42_sample_queue.md R155). -/
  | read (c : Nat) (max : Arg)
  /-- CLEAR: empty the queue (42_sample_queue.md R160). -/
  | clear (c : Nat)
  /-- SETWM: set the watermark (42_sample_queue.md R165). -/
  | setwm (c : Nat) (value : Arg)
  /-- RDREG: read one register; `id` names a channel or a timer, by the register's class (43_control.md R185). -/
  | rdreg (id : Nat) (reg : Reg)
  /-- CHRESET: channel back to IDLE (40_capture_channel.md R110). -/
  | chreset (c : Nat)
deriving DecidableEq, Repr

/-- The operation code of a command. -/
def Instr.opcode : Instr → Opcode
  | .edge _ _ => .edge
  | .ovf _ => .ovf
  | .openCh _ => .openCh
  | .close _ => .close
  | .read _ _ => .read
  | .clear _ => .clear
  | .setwm _ _ => .setwm
  | .rdreg _ _ => .rdreg
  | .chreset _ => .chreset

/-- The number in the ID field. -/
def Instr.id : Instr → Nat
  | .edge c _ => c
  | .ovf t => t
  | .openCh c => c
  | .close c => c
  | .read c _ => c
  | .clear c => c
  | .setwm c _ => c
  | .rdreg i _ => i
  | .chreset c => c

/-- Does the command's ID name a timer, or a channel (30_encoding.md R70)? -/
def Instr.namesTimer : Instr → Bool
  | .edge _ _ => false
  | .ovf _ => true
  | .openCh _ => false
  | .close _ => false
  | .read _ _ => false
  | .clear _ => false
  | .setwm _ _ => false
  | .rdreg _ r => r.namesTimer
  | .chreset _ => false

end Sys2Proof
end

