-- ==== Sys2Proof/WellFormed.lean ====
section
/-! DEFINITION. The checks on a command (its ID fits the ID field, 30_encoding.md R70) and on a configuration (the legal
values of 00_scope.md R8). The other operands fit their fields by their types. -/

namespace Sys2Proof

/-- The 8-bit ID field can carry the number. -/
def fitsId (n : Nat) : Bool := decide (n < 256)

/-- A command that has an encoding: its ID fits the 8-bit field (30_encoding.md R70, 92_eei_decisions.md D19).
An ID that fits but is out of the configuration's range is well-formed: it answers ERR_ID (30_encoding.md R79). -/
def Instr.wf : Instr → Bool
  | .edge c _ => fitsId c
  | .ovf t => fitsId t
  | .openCh c => fitsId c
  | .close c => fitsId c
  | .read c _ => fitsId c
  | .clear c => fitsId c
  | .setwm c _ => fitsId c
  | .rdreg i _ => fitsId i
  | .chreset c => fitsId c

/-- A count is 1..256 (00_scope.md R8: NUM_CH, NUM_TMR, NUM_Q). -/
def countOk (n : Nat) : Bool := decide (1 ≤ n) && decide (n ≤ 256)

/-- Each binding names a timer and a queue that exist (00_scope.md R8: `tmr_of`, `q_of`). -/
def Binding.wf (numTmr numQ : Nat) (b : Binding) : Bool := decide (b.tmr < numTmr) && decide (b.q < numQ)

/-- MOD[t] is 2..2^32 (00_scope.md R8). -/
def modOk (m : Nat) : Bool := decide (2 ≤ m) && decide (m ≤ 2 ^ 32)

/-- CAP[k] is 1..2^32-1 (00_scope.md R8). -/
def capOk (n : Nat) : Bool := decide (1 ≤ n) && decide (n ≤ 2 ^ 32 - 1)

/-- W_DUR is 1..32 (00_scope.md R8). -/
def wDurOk (n : Nat) : Bool := decide (1 ≤ n) && decide (n ≤ 32)

/-- W_TRK is 1..64 (00_scope.md R8). -/
def wTrkOk (n : Nat) : Bool := decide (1 ≤ n) && decide (n ≤ 64)

/-- A legal configuration: every column "legal values" of 00_scope.md R8. -/
def Cfg.wf (g : Cfg) : Bool :=
  countOk g.chan.length && countOk g.mod.length && countOk g.cap.length
    && g.chan.all (Binding.wf g.mod.length g.cap.length)
    && g.mod.all modOk && g.cap.all capOk && wDurOk g.wDur && wTrkOk g.wTrk

end Sys2Proof
end

