-- ==== Sys2Proof/Decode.lean ====
section
/-! DEFINITION. The decoder, total on 64-bit words, rejecting every illegal word by name (30_encoding.md R70 to R73,
R79 to R82), the encoder, and the match and mask rows of 30_encoding.md R73. -/

namespace Sys2Proof

/-! ### Fields of a command word (30_encoding.md R70, R71) -/

/-- OP = w[63:60]. -/
def opField (w : Word) : BitVec 4 := w.extractLsb' 60 4
/-- RSV1 = w[59:56]. -/
def rsv1Field (w : Word) : BitVec 4 := w.extractLsb' 56 4
/-- ID = w[55:48]. -/
def idField (w : Word) : BitVec 8 := w.extractLsb' 48 8
/-- SEL = w[47:40]. -/
def selField (w : Word) : BitVec 8 := w.extractLsb' 40 8
/-- RSV2 = w[39:32]. -/
def rsv2Field (w : Word) : BitVec 8 := w.extractLsb' 32 8
/-- ARG = w[31:0]. -/
def argField (w : Word) : Arg := w.extractLsb' 0 32

/-! ### Operation codes and register numbers -/

/-- The operation code's number (30_encoding.md R72). -/
def Opcode.bits : Opcode → BitVec 4
  | .edge => 0x1
  | .ovf => 0x2
  | .openCh => 0x3
  | .close => 0x4
  | .read => 0x5
  | .clear => 0x6
  | .setwm => 0x7
  | .rdreg => 0x8
  | .chreset => 0x9

/-- The operation code with a number; the rest are reserved (30_encoding.md R72, R80). -/
def Opcode.ofBits (b : BitVec 4) : Option Opcode :=
  match b.toNat with
  | 0x1 => some .edge
  | 0x2 => some .ovf
  | 0x3 => some .openCh
  | 0x4 => some .close
  | 0x5 => some .read
  | 0x6 => some .clear
  | 0x7 => some .setwm
  | 0x8 => some .rdreg
  | 0x9 => some .chreset
  | _ => none

/-- The register number, the SEL value (10_state.md R32). -/
def Reg.sel : Reg → BitVec 8
  | .chStatus => 0x00
  | .chLast => 0x01
  | .chOvf => 0x02
  | .chBind => 0x03
  | .chSnap => 0x04
  | .qOcc => 0x10
  | .qWm => 0x11
  | .qDrop => 0x12
  | .qCap => 0x13
  | .tmrTrk => 0x20
  | .tmrMod => 0x21

/-- The register with a SEL value; the rest are reserved (10_state.md R32; 30_encoding.md R81). -/
def Reg.ofSel (b : BitVec 8) : Option Reg :=
  match b.toNat with
  | 0x00 => some .chStatus
  | 0x01 => some .chLast
  | 0x02 => some .chOvf
  | 0x03 => some .chBind
  | 0x04 => some .chSnap
  | 0x10 => some .qOcc
  | 0x11 => some .qWm
  | 0x12 => some .qDrop
  | 0x13 => some .qCap
  | 0x20 => some .tmrTrk
  | 0x21 => some .tmrMod
  | _ => none

/-! ### The decoder -/

/-- Why a word is illegal (30_encoding.md R82). ECAP answers ERR_ILLEGAL for each; the names, and which one a word with
several faults gets, are the model's own (log entry 10). -/
inductive DecodeError where
  /-- OP is 0x0 or 0xA to 0xF (30_encoding.md R80). -/
  | reservedOp
  /-- RSV1 is not 0 (30_encoding.md R73). -/
  | rsv1Nonzero
  /-- RSV2 is not 0 (30_encoding.md R73). -/
  | rsv2Nonzero
  /-- SEL is not 0 for a command other than RDREG (30_encoding.md R73). -/
  | selNonzero
  /-- ARG is not 0 for a command that has no ARG (30_encoding.md R73). -/
  | argNonzero
  /-- RDREG with a reserved SEL (30_encoding.md R81). -/
  | reservedSel
deriving DecidableEq, Repr

/-- A command whose only operand is its ID: SEL and ARG must be 0. -/
def decodeId (sel : BitVec 8) (arg : Arg) (i : Instr) : Except DecodeError Instr :=
  if sel ≠ 0 then .error .selNonzero
  else if arg ≠ 0 then .error .argNonzero
  else .ok i

/-- A command with an ID and an ARG: SEL must be 0. -/
def decodeIdArg (sel : BitVec 8) (i : Instr) : Except DecodeError Instr :=
  if sel ≠ 0 then .error .selNonzero else .ok i

/-- RDREG: ARG must be 0 and SEL must be a register's number (30_encoding.md R81). -/
def decodeRdreg (id : Nat) (sel : BitVec 8) (arg : Arg) : Except DecodeError Instr :=
  if arg ≠ 0 then .error .argNonzero
  else
    match Reg.ofSel sel with
    | some r => .ok (.rdreg id r)
    | none => .error .reservedSel

/-- The operands of each operation code (30_encoding.md R72). -/
def decodeOperands (op : Opcode) (id : Nat) (sel : BitVec 8) (arg : Arg) : Except DecodeError Instr :=
  match op with
  | .edge => decodeIdArg sel (.edge id arg)
  | .ovf => decodeId sel arg (.ovf id)
  | .openCh => decodeId sel arg (.openCh id)
  | .close => decodeId sel arg (.close id)
  | .read => decodeIdArg sel (.read id arg)
  | .clear => decodeId sel arg (.clear id)
  | .setwm => decodeIdArg sel (.setwm id arg)
  | .rdreg => decodeRdreg id sel arg
  | .chreset => decodeId sel arg (.chreset id)

/-- The decoder: every 64-bit word is exactly one command, or illegal (30_encoding.md R79). -/
def decode (w : Word) : Except DecodeError Instr :=
  match Opcode.ofBits (opField w) with
  | none => .error .reservedOp
  | some op =>
    if rsv1Field w ≠ 0 then .error .rsv1Nonzero
    else if rsv2Field w ≠ 0 then .error .rsv2Nonzero
    else decodeOperands op (idField w).toNat (selField w) (argField w)

/-! ### The encoder -/

/-- The SEL field of a command: RDREG's register number, else 0 (30_encoding.md R72). -/
def Instr.selBits : Instr → BitVec 8
  | .edge _ _ => 0
  | .ovf _ => 0
  | .openCh _ => 0
  | .close _ => 0
  | .read _ _ => 0
  | .clear _ => 0
  | .setwm _ _ => 0
  | .rdreg _ r => r.sel
  | .chreset _ => 0

/-- The ARG field of a command: raw, max or value, else 0 (30_encoding.md R71, R72). -/
def Instr.argBits : Instr → Arg
  | .edge _ raw => raw
  | .ovf _ => 0
  | .openCh _ => 0
  | .close _ => 0
  | .read _ max => max
  | .clear _ => 0
  | .setwm _ value => value
  | .rdreg _ _ => 0
  | .chreset _ => 0

/-- The word with the given fields, both reserved fields 0 (30_encoding.md R70). -/
def packWord (op : BitVec 4) (id sel : BitVec 8) (arg : Arg) : Word :=
  op ++ (0#4) ++ id ++ sel ++ (0#8) ++ arg

/-- The command word of a command (30_encoding.md R70, R72, R85). -/
def encode (i : Instr) : Word :=
  packWord i.opcode.bits (BitVec.ofNat 8 i.id) i.selBits i.argBits

/-! ### The match and mask rows (30_encoding.md R73; opcode_table.json) -/

/-- One row of the opcode table. -/
structure OpcodeRow where
  op    : Opcode
  mtch  : Word
  mask  : Word
deriving DecidableEq, Repr

/-- The nine rows, written out from 30_encoding.md R73. -/
def opcodeRows : List OpcodeRow :=
  [ ⟨.edge,    0x1000000000000000, 0xFF00FFFF00000000⟩,
    ⟨.ovf,     0x2000000000000000, 0xFF00FFFFFFFFFFFF⟩,
    ⟨.openCh,  0x3000000000000000, 0xFF00FFFFFFFFFFFF⟩,
    ⟨.close,   0x4000000000000000, 0xFF00FFFFFFFFFFFF⟩,
    ⟨.read,    0x5000000000000000, 0xFF00FFFF00000000⟩,
    ⟨.clear,   0x6000000000000000, 0xFF00FFFFFFFFFFFF⟩,
    ⟨.setwm,   0x7000000000000000, 0xFF00FFFF00000000⟩,
    ⟨.rdreg,   0x8000000000000000, 0xFF0000FFFFFFFFFF⟩,
    ⟨.chreset, 0x9000000000000000, 0xFF00FFFFFFFFFFFF⟩ ]

/-- The word meets the row: `w & mask = match` (30_encoding.md R73). -/
def OpcodeRow.admits (r : OpcodeRow) (w : Word) : Bool := (w &&& r.mask) == r.mtch

/-! ### The host's numbering -/

/-- The command word of a table row's bits: a command is one 64-bit word, bit 0 the least significant, so the table's
numbering is the word's own (20_memory.md R51; log entry 9). Bits from `nbits` on are 0. -/
def tableWord (nbits w : Nat) : Word := BitVec.ofNat 64 (w % 2 ^ nbits)

/-- What the decoder reads from a table row's bits. Every command word is 64 bits long (30_encoding.md R84), so a row
of more bits is no command. -/
def decodeTableWord (nbits w : Nat) : Option Instr :=
  if nbits ≤ 64 then
    match decode (tableWord nbits w) with
    | .ok i => some i
    | .error _ => none
  else none

end Sys2Proof
end

