-- ==== Sys2Proof/Machine/Params.lean ====
section
/-! DEFINITION. Reading the configuration: the parameters of 00_scope.md R8 by their names, and WM_DEFAULT (R10).
An index no list entry answers to reads as the first legal number; no in-range command on a legal configuration asks
for one. -/

namespace Sys2Proof

/-- NUM_CH. -/
def Cfg.numCh (g : Cfg) : Nat := g.chan.length

/-- NUM_TMR. -/
def Cfg.numTmr (g : Cfg) : Nat := g.mod.length

/-- NUM_Q. -/
def Cfg.numQ (g : Cfg) : Nat := g.cap.length

/-- `tmr_of[c]`. -/
def Cfg.tmrOf (g : Cfg) (c : Nat) : Nat := (g.chan.getD c ⟨0, 0⟩).tmr

/-- `q_of[c]`. -/
def Cfg.qOf (g : Cfg) (c : Nat) : Nat := (g.chan.getD c ⟨0, 0⟩).q

/-- `MOD[t]`. -/
def Cfg.modOf (g : Cfg) (t : Nat) : Nat := g.mod.getD t 2

/-- `CAP[k]`. -/
def Cfg.capOf (g : Cfg) (k : Nat) : Nat := g.cap.getD k 1

/-- `WM_DEFAULT[k] = floor(CAP[k] / 2)` (00_scope.md R10). -/
def Cfg.wmDefault (g : Cfg) (k : Nat) : Arg := BitVec.ofNat 32 (g.capOf k / 2)

end Sys2Proof
end

