-- ==== Sys2Proof/Machine/Parts.lean ====
section
/-! DEFINITION. The parts of the state: a channel (10_state.md R22), the ring storage and a queue (R29), their reset
values (70_reset_and_hazards.md R230), and what passes between ECAP and its environment: events (30_encoding.md R74),
status codes (60_exceptions.md R200) and step outputs (30_encoding.md R75, R77). -/

namespace Sys2Proof.Machine

/-! ### Channel -/

/-- One CaptureChannel (10_state.md R22). -/
structure Channel where
  /-- Counter value at the previously captured edge. -/
  last  : Arg
  /-- The level just started by the most recent edge: `true` HIGH, `false` LOW. -/
  level : Bool
  /-- `has_prior_edge`: `false` IDLE, `true` ACTIVE (R23). -/
  prior : Bool
  /-- The tracker's value when `last` was recorded (SNAPSHOT mode); W_TRK bits held in 64. -/
  snap  : BitVec 64
  /-- Capture is armed. -/
  armed : Bool
deriving DecidableEq, Repr

/-- The reset value of every channel (70_reset_and_hazards.md R230). -/
def Channel.reset : Channel := { last := 0, level := false, prior := false, snap := 0, armed := false }

/-! ### Queue -/

/-- Ring storage: the slots written so far, by slot number. A slot not listed holds its unspecified content. -/
abbrev Memory := List (Nat × Sample)

/-- The canonical form: slot numbers strictly rising. A listed slot is a written slot, so no entry equals what an
unlisted slot reads as. -/
abbrev Memory.wf (m : Memory) : Prop := m.Pairwise (fun a b => a.1 < b.1)

/-- One SampleQueue (10_state.md R29). -/
structure Queue where
  /-- Ring storage. -/
  store : Memory
  /-- Index of the oldest held sample (hidden; 10_state.md R35). -/
  rd    : Nat
  /-- Occupancy. -/
  occ   : Nat
  /-- Watermark. -/
  wm    : Arg
  /-- Samples dropped because the queue was full, modulo 2^32. -/
  drop  : Arg
deriving DecidableEq, Repr

/-- The reset value of queue `k` (70_reset_and_hazards.md R230): empty, default watermark, every slot unspecified. -/
def Queue.reset (g : Cfg) (k : Nat) : Queue :=
  { store := [], rd := 0, occ := 0, wm := g.wmDefault k, drop := 0 }

/-! ### What passes between ECAP and its environment -/

/-- An input event (30_encoding.md R74). -/
inductive Event where
  /-- A command word with the environment's draw `init_ok`. OPEN alone reads the draw (43_control.md R181); for another
  word it means nothing. -/
  | cmd (w : Word) (initOk : Bool)
  /-- The reset event, no command word (70_reset_and_hazards.md R230). -/
  | reset
deriving DecidableEq, Repr

/-- The status codes (60_exceptions.md R200); 0x7 to 0xF are never produced. -/
inductive Status where
  | ok | dropped | ignored | errIllegal | errId | errRange | errInit
deriving DecidableEq, Repr

/-- The 4-bit code of a status (60_exceptions.md R200). -/
def Status.code : Status → BitVec 4
  | .ok => 0x0
  | .dropped => 0x1
  | .ignored => 0x2
  | .errIllegal => 0x3
  | .errId => 0x4
  | .errRange => 0x5
  | .errInit => 0x6

/-- Did the command complete (OK or DROPPED), so that its rule's writes took effect (60_exceptions.md R201)? -/
def Status.completes : Status → Bool
  | .ok | .dropped => true
  | .ignored | .errIllegal | .errId | .errRange | .errInit => false

/-- The output of one step: the response `(status, data)` (30_encoding.md R75) and the list `outs` of at most one
`NOTIFY(k)` (00_scope.md R16; 30_encoding.md R77). -/
structure StepOutput where
  status : Status
  data   : List Word
  /-- `some k` when the step emitted `NOTIFY(k)`. -/
  notify : Option Nat
deriving DecidableEq, Repr

/-- The direction of an edge (10_state.md R25). -/
inductive Polarity where
  | falling | rising
deriving DecidableEq, Repr

end Sys2Proof.Machine
end

