-- ==== Sys2Proof/Machine/State.lean ====
section
/-! DEFINITION. The state of the machine (10_state.md R22, R27, R29) with its configuration (R37), the events still to
be delivered and the outputs given (70_reset_and_hazards.md R248), the reasons a step can stop, and the state after
reset (70_reset_and_hazards.md R230, R231). -/

namespace Sys2Proof.Machine

/-- The machine. `ch`, `trk` and `q` are ECAP's state; `cfg` is its configuration, which no step writes; the last four
fields are the model's own (INVENTORY.md, State). -/
structure State where
  /-- The configuration record (00_scope.md R8; log entry 1). -/
  cfg     : Cfg
  /-- The channels, `ch[0]` first. -/
  ch      : List Channel
  /-- The overflow counts, `trk[0]` first; W_TRK bits held in 64. -/
  trk     : List (BitVec 64)
  /-- The queues, `q[0]` first. -/
  q       : List Queue
  /-- Reset events taken so far: what the unspecified slot contents are applied to (log entry 6). -/
  epoch   : Nat
  /-- The environment's draw delivered with the command being executed (30_encoding.md R74; log entry 4). -/
  initOk  : Bool
  /-- The events the environment has still to deliver, next first (log entry 2). -/
  inputs  : List Event
  /-- The outputs of the steps taken, oldest first (70_reset_and_hazards.md R248; log entry 3). -/
  outputs : List StepOutput
deriving DecidableEq, Repr

/-- The reasons ECAP stops with a fault: none. "ECAP never stops, never enters a fault state and never refuses a later
event because of an earlier one" (60_exceptions.md R202). -/
inductive Fault where
deriving DecidableEq, Repr

/-- The reasons a step is refused. -/
inductive Refusal where
  /-- An instruction the model gives no meaning. No arm of `exec` raises it: every command has its meaning. Safe. -/
  | notModelled (mnemonic : String)
deriving DecidableEq, Repr

/-- The state after reset under a configuration: every element at its reset value (70_reset_and_hazards.md R230). -/
def State.resetWith (g : Cfg) : State where
  cfg     := g
  ch      := List.replicate g.numCh Channel.reset
  trk     := List.replicate g.numTmr 0
  q       := (List.range g.numQ).map (Queue.reset g)
  epoch   := 0
  initOk  := true
  inputs  := []
  outputs := []

/-- The machine right after reset (70_reset_and_hazards.md R230), under the configuration that log entry 1 names.
DESIGN CHOICE: the configuration (log entry 1), and the model's own fields (log entries 2, 3, 4 and 6). -/
def State.reset : State := State.resetWith Cfg.default

/-- What every meaning answers. -/
abbrev Result := Host.Outcome State Fault Refusal

end Sys2Proof.Machine
end

