-- ==== Sys2Proof/Machine/Ops.lean ====
section
/-! DEFINITION. The named operations over state and memory (00_scope.md R13, R14), and the two ways a command ends:
`respond` and `raise` (00_scope.md R15), which is ECAP's only form of exception (60_exceptions.md R202, R208). -/

namespace Sys2Proof.Machine

/-! ### State elements (00_scope.md R13) -/

/-- `ch[c]`. -/
def State.chan (s : State) (c : Nat) : Channel := s.ch.getD c Channel.reset

/-- `trk[t]`. -/
def State.trkAt (s : State) (t : Nat) : BitVec 64 := s.trk.getD t 0

/-- `q[k]`. -/
def State.queue (s : State) (k : Nat) : Queue := s.q.getD k (Queue.reset s.cfg k)

/-- `ch[c] <- x`. -/
def State.setChan (s : State) (c : Nat) (x : Channel) : State := { s with ch := s.ch.set c x }

/-- `trk[t] <- v`. -/
def State.setTrk (s : State) (t : Nat) (v : BitVec 64) : State := { s with trk := s.trk.set t v }

/-- `q[k] <- x`. -/
def State.setQueue (s : State) (k : Nat) (x : Queue) : State := { s with q := s.q.set k x }

/-! ### Sample storage (00_scope.md R14, 20_memory.md R50) -/

/-- The sample a slot was last written with, if it was written. -/
def Memory.find? : Memory → Nat → Option Sample
  | [], _ => none
  | (j, x) :: m, i => if i = j then some x else Memory.find? m i

/-- Write one slot, keeping slot numbers strictly rising. -/
def Memory.write : Memory → Nat → Sample → Memory
  | [], i, x => [(i, x)]
  | (j, y) :: m, i, x =>
    if i < j then (i, x) :: (j, y) :: m
    else if i = j then (i, x) :: m
    else (j, y) :: Memory.write m i x

/-- The unspecified content of slot `i` of queue `k` (20_memory.md R53): a free value of W_DUR + 1 bits (R54). -/
def State.freeSlot (s : State) (k i : Nat) : Sample :=
  let x := Config.freeSample s.epoch k i
  { dur := BitVec.ofNat 32 (x.dur.toNat % 2 ^ s.cfg.wDur), lvl := x.lvl }

/-- `MemRead(k, i)` (00_scope.md R14). -/
def State.memRead (s : State) (k i : Nat) : Sample :=
  match (s.queue k).store.find? i with
  | some x => x
  | none => s.freeSlot k i

/-- `MemWrite(k, i, x)` (00_scope.md R14). -/
def State.memWrite (s : State) (k i : Nat) (x : Sample) : State :=
  s.setQueue k { s.queue k with store := (s.queue k).store.write i x }

/-- The slot of the `i`-th oldest held sample of queue `k`: `(rd + i) mod CAP` (42_sample_queue.md R155). -/
def State.slotOf (s : State) (k i : Nat) : Nat := ((s.queue k).rd + i) % s.cfg.capOf k

/-- The slot PUSH writes: `(rd + occ) mod CAP`, just after the newest held sample (42_sample_queue.md R150, R152). -/
def State.tailSlot (s : State) (k : Nat) : Nat := s.slotOf k (s.queue k).occ

/-- The abstract content `Q(k)`, oldest first (10_state.md R30). -/
def State.content (s : State) (k : Nat) : List Sample :=
  (List.range (s.queue k).occ).map fun i => s.memRead k (s.slotOf k i)

/-! ### Ending a command (00_scope.md R15) -/

/-- One entry of the step outputs (70_reset_and_hazards.md R248). -/
def State.emitOutput (s : State) (o : StepOutput) : State := { s with outputs := s.outputs ++ [o] }

/-- `respond <Status>(data)`, with the step's NOTIFY if it emitted one (00_scope.md R15). -/
def respond (status : Status) (data : List Word) (notify : Option Nat) (s : State) : Result :=
  .next (s.emitOutput { status := status, data := data, notify := notify })

/-- `raise <Status>`: the command ends at once, no state element changes, no data words (00_scope.md R15). -/
def raise (status : Status) (s : State) : Result := respond status [] none s

end Sys2Proof.Machine
end

