-- ==== Sys2Proof/Machine/Operands.lean ====
section
/-! DEFINITION. The operands of a command: channel and timer numbers and their bindings (00_scope.md R8), the range of a
captured value (40_capture_channel.md R106), READ's count (42_sample_queue.md R155), and the sample word
(30_encoding.md R76). -/

namespace Sys2Proof.Machine

/-- `c < NUM_CH`: the channel exists (60_exceptions.md R200, ERR_ID). -/
def State.validChan (s : State) (c : Nat) : Bool := decide (c < s.cfg.numCh)

/-- `t < NUM_TMR`: the timer exists (60_exceptions.md R200, ERR_ID). -/
def State.validTmr (s : State) (t : Nat) : Bool := decide (t < s.cfg.numTmr)

/-- The ID of the command is in range for its class (60_exceptions.md R201). -/
def State.validId (s : State) (i : Instr) : Bool :=
  if i.namesTimer then s.validTmr i.id else s.validChan i.id

/-- `raw < MOD[tmr_of[c]]`: a counter of the channel's timer can latch the value (40_capture_channel.md R106). -/
def State.rawInRange (s : State) (c : Nat) (raw : Arg) : Bool :=
  decide (raw.toNat < s.cfg.modOf (s.cfg.tmrOf c))

/-- `n = min(max, q[k].occ)` (42_sample_queue.md R155). -/
def State.readCount (s : State) (k : Nat) (max : Arg) : Nat := min max.toNat (s.queue k).occ

/-- The sample word `SW`: `sw[31:0] = dur`, `sw[32] = lvl`, `sw[63:33] = 0` (30_encoding.md R76). -/
def sampleWord (x : Sample) : Word := (0#31) ++ BitVec.ofBool x.lvl ++ x.dur

end Sys2Proof.Machine
end

