-- ==== Sys2Proof/Machine/Flags.lean ====
section
/-! DEFINITION. The flags and derived values of a channel: the tally (10_state.md R24) and its reset
(40_capture_channel.md R100), the expected polarity (10_state.md R25), CH_STATUS (R33), the IDLE, ACTIVE and re-based
channel records (40_capture_channel.md R101, R104, R110), and the watermark crossing (42_sample_queue.md R153). -/

namespace Sys2Proof.Machine

/-! ### The overflow tally -/

/-- `tally(c)` (10_state.md R24): the overflows counted since the channel's last ResetTally. -/
def State.tally (s : State) (c : Nat) : Nat :=
  match s.cfg.ovfMode with
  | .snapshot =>
    (((s.trkAt (s.cfg.tmrOf c)).toNat - (s.chan c).snap.toNat : Int) % (2 ^ s.cfg.wTrk : Nat)).toNat
  | .sharedReset => (s.trkAt (s.cfg.tmrOf c)).toNat

/-- `ResetTally(c)` (40_capture_channel.md R100). -/
def resetTally (c : Nat) (s : State) : State :=
  match s.cfg.ovfMode with
  | .snapshot => s.setChan c { s.chan c with snap := s.trkAt (s.cfg.tmrOf c) }
  | .sharedReset => s.setTrk (s.cfg.tmrOf c) 0

/-- `(v + 1) mod 2^W_TRK` (41_overflow_tracker.md R130, R136). -/
def trkIncr (wTrk : Nat) (v : BitVec 64) : BitVec 64 := BitVec.ofNat 64 ((v.toNat + 1) % 2 ^ wTrk)

/-! ### Channel flags -/

/-- `expect(c)`: the polarity now expected (10_state.md R25; 90_conflicts.md C6). -/
def Channel.expect (x : Channel) : Polarity :=
  if x.prior then (if x.level then .falling else .rising) else .falling

/-- FALLING is encoded 0 and RISING 1 (10_state.md R25, R33). -/
def Polarity.bit : Polarity → Bool
  | .falling => false
  | .rising => true

/-- CH_STATUS: ARMED, ACTIVE, LEVEL and EXPECT in bits 0 to 3, the rest 0 (10_state.md R33). -/
def Channel.status (x : Channel) : Word :=
  (0#60) ++ BitVec.ofBool x.expect.bit ++ BitVec.ofBool x.level ++ BitVec.ofBool x.prior ++ BitVec.ofBool x.armed

/-- The channel fields after the first edge (40_capture_channel.md R101): ACTIVE, LOW, `last = raw`. -/
def Channel.started (x : Channel) (raw : Arg) : Channel := { x with last := raw, level := false, prior := true }

/-- The channel fields after a later edge (40_capture_channel.md R104): level toggled, `last = raw`. -/
def Channel.toggled (x : Channel) (raw : Arg) : Channel := { x with last := raw, level := !x.level }

/-- The channel fields back to IDLE (40_capture_channel.md R110; 43_control.md R180): `(0, 0, 0)`. -/
def Channel.idled (x : Channel) : Channel := { x with last := 0, level := false, prior := false }

/-! ### The watermark -/

/-- The PUSH that finds the queue at this occupancy crosses the watermark: `occ < wm` and `wm ≤ occ + 1`
(42_sample_queue.md R150, R153). -/
def Queue.crosses (x : Queue) : Bool := decide (x.occ < x.wm.toNat) && decide (x.wm.toNat ≤ x.occ + 1)

end Sys2Proof.Machine
end

