-- ==== Sys2Proof/Machine/SampleQueue.lean ====
section
/-! DEFINITION. SampleQueue: the internal PUSH (42_sample_queue.md R150 to R153), READ (R155), CLEAR (R160) and SETWM
(R165). -/

namespace Sys2Proof.Machine

/-! ### PUSH (42_sample_queue.md R150) -/

/-- `q[k].occ = CAP[k]`: the queue is full, and PUSH fails. -/
def State.queueFull (s : State) (k : Nat) : Bool := decide ((s.queue k).occ = s.cfg.capOf k)

/-- A PUSH that fails: `drop + 1` modulo 2^32, nothing else (42_sample_queue.md R151). -/
def pushDrop (k : Nat) (s : State) : State :=
  s.setQueue k { s.queue k with drop := (s.queue k).drop + 1 }

/-- A PUSH that succeeds: the sample at the tail, the occupancy one up (42_sample_queue.md R152). -/
def pushStore (k : Nat) (x : Sample) (s : State) : State :=
  let s' := s.memWrite k (s.tailSlot k) x
  s'.setQueue k { s'.queue k with occ := (s.queue k).occ + 1 }

/-- What PUSH leaves (42_sample_queue.md R150). -/
def pushState (k : Nat) (x : Sample) (s : State) : State :=
  if s.queueFull k then pushDrop k s else pushStore k x s

/-- The NOTIFY that PUSH emits: `NOTIFY(k)` on the crossing PUSH alone (42_sample_queue.md R150, R153). -/
def pushNotify (k : Nat) (s : State) : Option Nat :=
  if s.queueFull k then none else if (s.queue k).crosses then some k else none

/-! ### READ, CLEAR, SETWM -/

/-- The data words of a READ of `n` samples, oldest first (42_sample_queue.md R155). -/
def State.readData (s : State) (k n : Nat) : List Word :=
  (List.range n).map fun i => sampleWord (s.memRead k (s.slotOf k i))

/-- What removing the `n` oldest samples leaves (42_sample_queue.md R155). -/
def dequeue (k n : Nat) (s : State) : State :=
  s.setQueue k { s.queue k with rd := s.slotOf k n, occ := (s.queue k).occ - n }

/-- READ (42_sample_queue.md R155). -/
def execRead (c : Nat) (max : Arg) (s : State) : Result :=
  if !s.validChan c then raise .errId s
  else
    let k := s.cfg.qOf c
    let n := s.readCount k max
    respond .ok (s.readData k n) none (dequeue k n s)

/-- CLEAR (42_sample_queue.md R160): the occupancy alone. -/
def execClear (c : Nat) (s : State) : Result :=
  if !s.validChan c then raise .errId s
  else
    let k := s.cfg.qOf c
    respond .ok [] none (s.setQueue k { s.queue k with occ := 0 })

/-- SETWM (42_sample_queue.md R165): any 32-bit value, unclamped (R166). -/
def execSetwm (c : Nat) (value : Arg) (s : State) : Result :=
  if !s.validChan c then raise .errId s
  else
    let k := s.cfg.qOf c
    respond .ok [] none (s.setQueue k { s.queue k with wm := value })

end Sys2Proof.Machine
end

