-- ==== Sys2Proof/Machine/CaptureChannel.lean ====
section
/-! DEFINITION. CaptureChannel: EDGE (40_capture_channel.md R101 to R107) and CHRESET (R110). -/

namespace Sys2Proof.Machine

/-- The duration `(raw + n * MOD[t] - last) mod 2^W_DUR`, taken in the integers before the reduction
(40_capture_channel.md R102, R103). -/
def State.duration (s : State) (c : Nat) (raw : Arg) : Arg :=
  let t := s.cfg.tmrOf c
  let elapsed : Int := raw.toNat + s.tally c * s.cfg.modOf t - (s.chan c).last.toNat
  BitVec.ofNat 32 (elapsed % (2 ^ s.cfg.wDur : Nat)).toNat

/-- The sample an edge emits: the duration, and the level from before the toggle (40_capture_channel.md R104). -/
def State.edgeSample (s : State) (c : Nat) (raw : Arg) : Sample :=
  { dur := s.duration c raw, lvl := (s.chan c).level }

/-- EDGE, IDLE branch (40_capture_channel.md R101): no sample. -/
def edgeIdle (c : Nat) (raw : Arg) (s : State) : Result :=
  respond .ok [] none (resetTally c (s.setChan c ((s.chan c).started raw)))

/-- EDGE, ACTIVE branch (40_capture_channel.md R102, R104, R105): the channel advances whether or not PUSH succeeds. -/
def edgeActive (c : Nat) (raw : Arg) (s : State) : Result :=
  let k := s.cfg.qOf c
  let s' := pushState k (s.edgeSample c raw) s
  let status := if s.queueFull k then Status.dropped else Status.ok
  respond status [] (pushNotify k s) (resetTally c (s'.setChan c ((s.chan c).toggled raw)))

/-- EDGE (40_capture_channel.md R106), with its checks in the priority of 60_exceptions.md R201. -/
def execEdge (c : Nat) (raw : Arg) (s : State) : Result :=
  if !s.validChan c then raise .errId s
  else if !(s.chan c).armed then raise .ignored s
  else if !s.rawInRange c raw then raise .errRange s
  else if !(s.chan c).prior then edgeIdle c raw s
  else edgeActive c raw s

/-- CHRESET (40_capture_channel.md R110): back to IDLE; `armed` and the queue are kept. -/
def execChreset (c : Nat) (s : State) : Result :=
  if !s.validChan c then raise .errId s
  else respond .ok [] none (resetTally c (s.setChan c (s.chan c).idled))

end Sys2Proof.Machine
end

