-- ==== Sys2Proof/Machine/Control.lean ====
section
/-! DEFINITION. The control commands: OPEN (43_control.md R180 to R182), CLOSE (R183, R184) and RDREG (R185, R186). -/

namespace Sys2Proof.Machine

/-- The queue reset of OPEN (43_control.md R180); the storage is not written. -/
def openQueue (k : Nat) (s : State) : State :=
  s.setQueue k { s.queue k with occ := 0, rd := 0, wm := s.cfg.wmDefault k, drop := 0 }

/-- OPEN with a successful initialisation (43_control.md R180): channel, tally and queue reset, capture armed. -/
def openState (c : Nat) (s : State) : State :=
  openQueue (s.cfg.qOf c) (resetTally c (s.setChan c { (s.chan c).idled with armed := true }))

/-- OPEN (43_control.md R180); `init_ok` is the environment's draw, held in `State.initOk` (R181). -/
def execOpen (c : Nat) (s : State) : Result :=
  if !s.validChan c then raise .errId s
  else if !s.initOk then raise .errInit s
  else respond .ok [] none (openState c s)

/-- CLOSE (43_control.md R183): `armed` alone. -/
def execClose (c : Nat) (s : State) : Result :=
  if !s.validChan c then raise .errId s
  else respond .ok [] none (s.setChan c { s.chan c with armed := false })

/-- The value of a register, 64 bits, zero-extended (10_state.md R32, R33; 30_encoding.md R78). -/
def State.regValue (s : State) (id : Nat) : Reg → Word
  | .chStatus => (s.chan id).status
  | .chLast => BitVec.setWidth 64 (s.chan id).last
  | .chOvf => BitVec.ofNat 64 (s.tally id)
  | .chBind => (0#48) ++ BitVec.ofNat 8 (s.cfg.qOf id) ++ BitVec.ofNat 8 (s.cfg.tmrOf id)
  | .chSnap => (s.chan id).snap
  | .qOcc => BitVec.ofNat 64 (s.queue (s.cfg.qOf id)).occ
  | .qWm => BitVec.setWidth 64 (s.queue (s.cfg.qOf id)).wm
  | .qDrop => BitVec.setWidth 64 (s.queue (s.cfg.qOf id)).drop
  | .qCap => BitVec.ofNat 64 (s.cfg.capOf (s.cfg.qOf id))
  | .tmrTrk => s.trkAt id
  | .tmrMod => BitVec.ofNat 64 (s.cfg.modOf id)

/-- RDREG (43_control.md R185): one data word, no side effect. -/
def execRdreg (id : Nat) (reg : Reg) (s : State) : Result :=
  if !(if reg.namesTimer then s.validTmr id else s.validChan id) then raise .errId s
  else respond .ok [s.regValue id reg] none s

end Sys2Proof.Machine
end

