-- ==== Sys2Proof/Machine/OverflowTracker.lean ====
section
/-! DEFINITION. OverflowTracker: OVF (41_overflow_tracker.md R130, R135, R136). -/

namespace Sys2Proof.Machine

/-- OVF (41_overflow_tracker.md R130): one overflow of timer `t`, whatever the channels on it do (R135). -/
def execOvf (t : Nat) (s : State) : Result :=
  if !s.validTmr t then raise .errId s
  else respond .ok [] none (s.setTrk t (trkIncr s.cfg.wTrk (s.trkAt t)))

end Sys2Proof.Machine
end

