-- ==== Sys2Proof/Machine/Dispatch.lean ====
section
/-! DEFINITION. One arm per command (30_encoding.md R72). -/

namespace Sys2Proof.Machine

def exec (i : Instr) (s : State) : Host.Outcome State Fault Refusal :=
  match i with
  | .edge c raw => Sys2Proof.Machine.execEdge c raw s
  | .ovf t => Sys2Proof.Machine.execOvf t s
  | .openCh c => Sys2Proof.Machine.execOpen c s
  | .close c => Sys2Proof.Machine.execClose c s
  | .read c max => Sys2Proof.Machine.execRead c max s
  | .clear c => Sys2Proof.Machine.execClear c s
  | .setwm c value => Sys2Proof.Machine.execSetwm c value s
  | .rdreg id reg => Sys2Proof.Machine.execRdreg id reg s
  | .chreset c => Sys2Proof.Machine.execChreset c s

end Sys2Proof.Machine
end

