-- ==== Sys2Proof/Machine/Deliver.lean ====
section
/-! DEFINITION. Taking one input event (30_encoding.md R74): a command word is decoded and executed, an illegal word
answers ERR_ILLEGAL (R82), Reset puts every element at its reset value (70_reset_and_hazards.md R230). -/

namespace Sys2Proof.Machine

/-- A command word with the environment's draw (30_encoding.md R74, R82). -/
def takeCommand (w : Word) (draw : Bool) (s : State) : Result :=
  match decode w with
  | .ok i => exec i { s with initOk := draw }
  | .error _ => raise .errIllegal s

/-- The state elements the Reset event writes (70_reset_and_hazards.md R230); slots hold new unspecified contents. -/
def resetElements (s : State) : State :=
  { s with
    ch := List.replicate s.cfg.numCh Channel.reset
    trk := List.replicate s.cfg.numTmr 0
    q := (List.range s.cfg.numQ).map (Queue.reset s.cfg)
    epoch := s.epoch + 1 }

/-- The Reset event answers `(OK, [])` and emits no NOTIFY (70_reset_and_hazards.md R230). -/
def takeReset (s : State) : Result := respond .ok [] none (resetElements s)

/-- One input event, one atomic step (20_memory.md R55). -/
def takeEvent (e : Event) (s : State) : Result :=
  match e with
  | .cmd w draw => takeCommand w draw s
  | .reset => takeReset s

/-- The environment's next event is this command word, delivered before everything else still to come, with the draw
the state holds (log entries 4 and 8). -/
def deliverFirst (w : Word) (s : State) : State := { s with inputs := .cmd w s.initOk :: s.inputs }

end Sys2Proof.Machine
end

