-- ==== Sys2Proof/Machine/Step.lean ====
section
/-! DEFINITION. One step of the machine: the next input event is taken (00_scope.md R16; 20_memory.md R55, R57). -/

namespace Sys2Proof.Machine

/-- One step. With no event to take, nothing happens: every element keeps its value (60_exceptions.md R213) and no
output is given (DESIGN CHOICE, log entry 5). -/
def step (s : State) : Host.Outcome State Fault Refusal :=
  match s.inputs with
  | [] => .next s
  | e :: rest => takeEvent e { s with inputs := rest }

/-- `s` with the command word of a table row's bits as the next event to be delivered (log entry 8). -/
def State.withFetchWord (s : State) (nbits w : Nat) : State := deliverFirst (tableWord nbits w) s

end Sys2Proof.Machine
end

