-- ==== Sys2Proof/Safety.lean ====
section
/-! DEFINITION. What counts as a good state and a safe run, in the terms the statements use: the invariant of the
reachable states (10_state.md R22, R26, R27, R29, R30; 20_memory.md R53), what an observer can tell apart (10_state.md
R35), the correspondence of the two tally disciplines (41_overflow_tracker.md R137), and the parts a command keeps. -/

namespace Sys2Proof.Machine

/-! ### The invariant -/

/-- What holds of channel `c` in every reachable state (10_state.md R26, R22). -/
structure ChannelInv (g : Cfg) (c : Nat) (x : Channel) : Prop where
  /-- R26 (b): `last < MOD[tmr_of[c]]`. -/
  lastLt     : x.last.toNat < g.modOf (g.tmrOf c)
  /-- R26 (a): an IDLE channel has level 0 and last 0. -/
  idleZero   : x.prior = false → x.level = false ∧ x.last = 0
  /-- R22: `snap` is a W_TRK-bit value. -/
  snapLt     : x.snap.toNat < 2 ^ g.wTrk
  /-- R22: `snap` holds 0 in SHARED_RESET mode. -/
  sharedSnap : g.ovfMode = .sharedReset → x.snap = 0

/-- What holds of queue `k` in every reachable state (10_state.md R29, R30; 20_memory.md R53, R54). -/
structure QueueInv (s : State) (k : Nat) : Prop where
  /-- The storage is in its canonical form. -/
  storeWf  : (s.queue k).store.wf
  /-- R29: slots are numbered below CAP, and a sample has a W_DUR-bit duration. -/
  slotsOk  : ∀ e ∈ (s.queue k).store, e.1 < s.cfg.capOf k ∧ e.2.dur.toNat < 2 ^ s.cfg.wDur
  /-- R29: `rd` is 0..CAP-1. -/
  rdLt     : (s.queue k).rd < s.cfg.capOf k
  /-- R30: 0 ≤ occ ≤ CAP. -/
  occLe    : (s.queue k).occ ≤ s.cfg.capOf k
  /-- R53: every slot inside `Q(k)` has been written. -/
  heldSlot : ∀ i < (s.queue k).occ, ((s.queue k).store.find? (s.slotOf k i)).isSome

/-- The invariant of the reachable states. -/
structure State.Inv (s : State) : Prop where
  /-- The configuration is legal (00_scope.md R8). -/
  cfgWf    : s.cfg.wf = true
  /-- One channel per channel number, one count per timer, one queue per queue number (R22, R27, R29). -/
  chLen    : s.ch.length = s.cfg.numCh
  trkLen   : s.trk.length = s.cfg.numTmr
  qLen     : s.q.length = s.cfg.numQ
  chanInv  : ∀ c < s.cfg.numCh, ChannelInv s.cfg c (s.chan c)
  /-- R27: `trk[t]` is a W_TRK-bit value. -/
  trkLt    : ∀ t < s.cfg.numTmr, (s.trkAt t).toNat < 2 ^ s.cfg.wTrk
  queueInv : ∀ k < s.cfg.numQ, QueueInv s k

/-! ### Runs of commands -/

/-- Commands executed one after another, each from the state the one before left (20_memory.md R57). -/
def execAll : List Instr → State → Result
  | [], s => .next s
  | i :: is, s =>
    match exec i s with
    | .next t => execAll is t
    | .fault r => .fault r
    | .refused r => .refused r

/-! ### What an observer can tell apart -/

/-- Two queues hold the same, but for the hidden read index and the slots outside `Q(k)` (10_state.md R35). -/
structure QueueObsEq (s u : State) (k : Nat) : Prop where
  content : s.content k = u.content k
  occ     : (s.queue k).occ = (u.queue k).occ
  wm      : (s.queue k).wm = (u.queue k).wm
  drop    : (s.queue k).drop = (u.queue k).drop

/-- Two states that differ only in `rd` and in the content of slots outside `Q(k)` (10_state.md R35). -/
structure State.ObsEq (s u : State) : Prop where
  cfg     : s.cfg = u.cfg
  ch      : s.ch = u.ch
  trk     : s.trk = u.trk
  initOk  : s.initOk = u.initOk
  inputs  : s.inputs = u.inputs
  outputs : s.outputs = u.outputs
  queues  : ∀ k < s.cfg.numQ, QueueObsEq s u k

/-! ### The two tally disciplines -/

/-- Every timer has at most one channel (41_overflow_tracker.md R137). -/
def OneChannelPerTimer (g : Cfg) : Prop :=
  ∀ c < g.numCh, ∀ c' < g.numCh, g.tmrOf c = g.tmrOf c' → c = c'

/-- A SNAPSHOT machine and a SHARED_RESET machine of one configuration that agree on all but the tracker and the
snapshots, with the same tally in every channel (41_overflow_tracker.md R137). -/
structure ModeEq (s u : State) : Prop where
  snapshotMode : s.cfg.ovfMode = .snapshot
  sharedCfg    : u.cfg = { s.cfg with ovfMode := .sharedReset }
  channels     : ∀ c < s.cfg.numCh, { s.chan c with snap := 0 } = { u.chan c with snap := 0 }
  tallies      : ∀ c < s.cfg.numCh, s.tally c = u.tally c
  q            : s.q = u.q
  epoch        : s.epoch = u.epoch
  initOk       : s.initOk = u.initOk
  inputs       : s.inputs = u.inputs
  outputs      : s.outputs = u.outputs

/-- An event that reads a register the two disciplines show differently: TMR_TRK or CH_SNAP (R137). -/
def Event.readsTracker : Event → Prop
  | .cmd w _ => ∃ id, decode w = .ok (.rdreg id .tmrTrk) ∨ decode w = .ok (.rdreg id .chSnap)
  | .reset => False

/-! ### What a command completes with, and what it keeps -/

/-- The command answers the next state `t` with the one output `o`, and writes neither the configuration nor the
model's own fields. -/
structure Completes (i : Instr) (s : State) (o : StepOutput) (t : State) : Prop where
  exec_eq : exec i s = .next t
  outputs : t.outputs = s.outputs ++ [o]
  cfg     : t.cfg = s.cfg
  epoch   : t.epoch = s.epoch
  initOk  : t.initOk = s.initOk
  inputs  : t.inputs = s.inputs

/-- Every channel but `c` is unchanged. -/
def KeepsOtherChannels (c : Nat) (s t : State) : Prop := ∀ c', c' ≠ c → t.chan c' = s.chan c'

/-- Every tracker but `tm` is unchanged. -/
def KeepsOtherTrackers (tm : Nat) (s t : State) : Prop := ∀ tm', tm' ≠ tm → t.trkAt tm' = s.trkAt tm'

/-- Every queue but `k` is unchanged. -/
def KeepsOtherQueues (k : Nat) (s t : State) : Prop := ∀ k', k' ≠ k → t.queue k' = s.queue k'

/-- Every slot of every queue reads as before. -/
def KeepsAllSlots (s t : State) : Prop := ∀ k i, t.memRead k i = s.memRead k i

/-- Every slot but slot `j` of queue `k` reads as before. -/
def KeepsOtherSlots (k j : Nat) (s t : State) : Prop :=
  ∀ k' i, ¬ (k' = k ∧ i = j) → t.memRead k' i = s.memRead k' i

/-- What ResetTally(c) does to tracker and snapshot, and that the tally is 0 after it (40_capture_channel.md R100). -/
structure TallyReset (c : Nat) (s t : State) : Prop where
  snapshot : s.cfg.ovfMode = .snapshot → t.trk = s.trk ∧ (t.chan c).snap = s.trkAt (s.cfg.tmrOf c)
  shared   : s.cfg.ovfMode = .sharedReset →
    t.trkAt (s.cfg.tmrOf c) = 0 ∧ KeepsOtherTrackers (s.cfg.tmrOf c) s t ∧ (t.chan c).snap = (s.chan c).snap
  zero     : t.tally c = 0

end Sys2Proof.Machine
end

