-- ==== Sys2Proof/Certificates/Slice0/Obligations.lean ====
section
/-! DEFINITION. The statements for the provers: what the numbered rules of the spec say each command and the machine do.
Each docstring names the rule. The configuration is universally quantified in every statement (it is a field of the
state, log entry 1); no statement rests on a value the log marks DESIGN CHOICE unless its docstring says so. -/

open Sys2Proof Sys2Proof.Machine

namespace Sys2Proof.Machine

/-! ### The rules' own tables, written out for the statements -/

/-- The illegal words, by the fields of 30_encoding.md R70: a reserved OP, a nonzero RSV1 or RSV2, a nonzero SEL on a
command other than RDREG, a nonzero ARG on a command other than EDGE, READ and SETWM, or RDREG with a reserved SEL
(R80 to R82). -/
def IllegalWord (w : Word) : Prop :=
  ((opField w).toNat < 0x1 ∨ 0x9 < (opField w).toNat)
    ∨ rsv1Field w ≠ 0
    ∨ rsv2Field w ≠ 0
    ∨ ((opField w).toNat ≠ 0x8 ∧ selField w ≠ 0)
    ∨ ((opField w).toNat ≠ 0x1 ∧ (opField w).toNat ≠ 0x5 ∧ (opField w).toNat ≠ 0x7 ∧ argField w ≠ 0)
    ∨ ((opField w).toNat = 0x8 ∧
        (selField w).toNat ∉ [0x00, 0x01, 0x02, 0x03, 0x04, 0x10, 0x11, 0x12, 0x13, 0x20, 0x21])

/-- The numbers of the eleven registers, written out from the table of 10_state.md R32. -/
def selNumber : Reg → Nat
  | .chStatus => 0x00
  | .chLast => 0x01
  | .chOvf => 0x02
  | .chBind => 0x03
  | .chSnap => 0x04
  | .qOcc => 0x10
  | .qWm => 0x11
  | .qDrop => 0x12
  | .qCap => 0x13
  | .tmrTrk => 0x20
  | .tmrMod => 0x21

/-- The number an RDREG names is out of range: a timer for TMR_TRK and TMR_MOD, else a channel (10_state.md R32). -/
def RdregIdOutOfRange (s : State) (id : Nat) (r : Reg) : Prop :=
  if r = .tmrTrk ∨ r = .tmrMod then s.cfg.numTmr ≤ id else s.cfg.numCh ≤ id

/-- The ID of the command is out of range for its class (60_exceptions.md R201; the classes are those of 30_encoding.md
R72). -/
def IdOutOfRange (s : State) (i : Instr) : Prop :=
  match i with
  | .edge c _ => s.cfg.numCh ≤ c
  | .ovf t => s.cfg.numTmr ≤ t
  | .openCh c => s.cfg.numCh ≤ c
  | .close c => s.cfg.numCh ≤ c
  | .read c _ => s.cfg.numCh ≤ c
  | .clear c => s.cfg.numCh ≤ c
  | .setwm c _ => s.cfg.numCh ≤ c
  | .rdreg id r => RdregIdOutOfRange s id r
  | .chreset c => s.cfg.numCh ≤ c

/-- Items 3 to 5 of 60_exceptions.md R201, for a command whose ID is in range: the first condition that applies. -/
def StatusOfInRange (s : State) (i : Instr) (st : Status) : Prop :=
  match i with
  | .edge c raw =>
    ((s.chan c).armed = false ∧ st = .ignored)
      ∨ ((s.chan c).armed = true ∧ s.cfg.modOf (s.cfg.tmrOf c) ≤ raw.toNat ∧ st = .errRange)
      ∨ ((s.chan c).armed = true ∧ raw.toNat < s.cfg.modOf (s.cfg.tmrOf c)
          ∧ (s.chan c).prior = true ∧ (s.queue (s.cfg.qOf c)).occ = s.cfg.capOf (s.cfg.qOf c) ∧ st = .dropped)
      ∨ ((s.chan c).armed = true ∧ raw.toNat < s.cfg.modOf (s.cfg.tmrOf c)
          ∧ ((s.chan c).prior = false ∨ (s.queue (s.cfg.qOf c)).occ ≠ s.cfg.capOf (s.cfg.qOf c)) ∧ st = .ok)
  | .openCh _ => (s.initOk = false ∧ st = .errInit) ∨ (s.initOk = true ∧ st = .ok)
  | .ovf _ => st = .ok
  | .close _ => st = .ok
  | .read _ _ => st = .ok
  | .clear _ => st = .ok
  | .setwm _ _ => st = .ok
  | .rdreg _ _ => st = .ok
  | .chreset _ => st = .ok

/-- The integer `raw + n * MOD[t] - last` with `n = tally(c)`, before the reduction (40_capture_channel.md R102). -/
def elapsedCount (s : State) (c : Nat) (raw : Arg) : Int :=
  raw.toNat + s.tally c * s.cfg.modOf (s.cfg.tmrOf c) - (s.chan c).last.toNat

/-- The number each register holds (10_state.md R24, R25, R32, R33). -/
def registerNumber (s : State) (id : Nat) : Reg → Nat
  | .chStatus =>
    (s.chan id).armed.toNat + 2 * (s.chan id).prior.toNat + 4 * (s.chan id).level.toNat
      + 8 * ((s.chan id).prior && !(s.chan id).level).toNat
  | .chLast => (s.chan id).last.toNat
  | .chOvf =>
    match s.cfg.ovfMode with
    | .snapshot =>
      (((s.trkAt (s.cfg.tmrOf id)).toNat - (s.chan id).snap.toNat : Int) % (2 ^ s.cfg.wTrk : Nat)).toNat
    | .sharedReset => (s.trkAt (s.cfg.tmrOf id)).toNat
  | .chBind => 256 * s.cfg.qOf id + s.cfg.tmrOf id
  | .chSnap => (s.chan id).snap.toNat
  | .qOcc => (s.queue (s.cfg.qOf id)).occ
  | .qWm => (s.queue (s.cfg.qOf id)).wm.toNat
  | .qDrop => (s.queue (s.cfg.qOf id)).drop.toNat
  | .qCap => s.cfg.capOf (s.cfg.qOf id)
  | .tmrTrk => (s.trkAt id).toNat
  | .tmrMod => s.cfg.modOf id

/-- The step's whole effect when a command raises a status: the response, and nothing else (00_scope.md R15). -/
def Raises (i : Instr) (s : State) (st : Status) : Prop := exec i s = .next (s.emitOutput ⟨st, [], none⟩)

/-- A run of edges of channel `c` on timer `tm`, each preceded by a number of overflows of the timer. -/
def edgeRun (c tm : Nat) : List (Nat × Arg) → List Instr
  | [] => []
  | (n, raw) :: l => List.replicate n (.ovf tm) ++ .edge c raw :: edgeRun c tm l

/-- The samples such a run emits after an edge at `prev` (40_capture_channel.md R113): each duration is
`(c1 + k * MOD - c0) mod 2^W_DUR`, and the levels alternate. -/
def emittedSamples (wDur modulus : Nat) : Nat → Bool → List (Nat × Arg) → List (Nat × Bool)
  | _, _, [] => []
  | prev, lvl, (n, raw) :: l =>
    (((raw.toNat + n * modulus - prev : Int) % (2 ^ wDur : Nat)).toNat, lvl)
      :: emittedSamples wDur modulus raw.toNat (!lvl) l

end Sys2Proof.Machine

/-! ### Encoding -/

/-- 30_encoding.md R70 to R73: no field is dropped; decoding the word of a command gives the command back. -/
def Obligations.DecodeEncodeRoundTrip : Prop :=
  ∀ i : Instr, i.wf = true → decode (encode i) = .ok i

/-- 30_encoding.md R73, R79: a command has one word, and what decodes is well-formed. -/
def Obligations.EncodeDecodeRoundTrip : Prop :=
  ∀ (w : Word) (i : Instr), decode w = .ok i → i.wf = true ∧ encode i = w

/-- 30_encoding.md R73, with R81's limit on RDREG's SEL: a word decodes to a command exactly when it meets the match and
mask of that command's row, and no word meets two rows. -/
def Obligations.DecodesExactlyOnAnOpcodeRow : Prop :=
  (∀ (w : Word) (op : Opcode), (∃ i, decode w = .ok i ∧ i.opcode = op) ↔
    ∃ r ∈ opcodeRows, r.op = op ∧ w &&& r.mask = r.mtch ∧
      (op = .rdreg → (selField w).toNat ∈ [0x00, 0x01, 0x02, 0x03, 0x04, 0x10, 0x11, 0x12, 0x13, 0x20, 0x21]))
  ∧ ∀ w : Word, opcodeRows.Pairwise fun a b => ¬ (w &&& a.mask = a.mtch ∧ w &&& b.mask = b.mtch)

/-- 30_encoding.md R82: the decoder rejects the words R82 lists, and only those. -/
def Obligations.RejectsExactlyTheIllegalWords : Prop :=
  ∀ w : Word, (∃ e, decode w = .error e) ↔ IllegalWord w

/-- 30_encoding.md R85: the word of each textual form, with SEL(NAME) the register numbers of 10_state.md R32. -/
def Obligations.EncodingIsTheAssemblerForm : Prop :=
  ∀ n : Nat, n < 256 → ∀ (a : Arg) (r : Reg),
    (encode (.edge n a)).toNat = 0x1 * 2 ^ 60 + n * 2 ^ 48 + a.toNat
    ∧ (encode (.ovf n)).toNat = 0x2 * 2 ^ 60 + n * 2 ^ 48
    ∧ (encode (.openCh n)).toNat = 0x3 * 2 ^ 60 + n * 2 ^ 48
    ∧ (encode (.close n)).toNat = 0x4 * 2 ^ 60 + n * 2 ^ 48
    ∧ (encode (.read n a)).toNat = 0x5 * 2 ^ 60 + n * 2 ^ 48 + a.toNat
    ∧ (encode (.clear n)).toNat = 0x6 * 2 ^ 60 + n * 2 ^ 48
    ∧ (encode (.setwm n a)).toNat = 0x7 * 2 ^ 60 + n * 2 ^ 48 + a.toNat
    ∧ (encode (.rdreg n r)).toNat = 0x8 * 2 ^ 60 + n * 2 ^ 48 + selNumber r * 2 ^ 40
    ∧ (encode (.chreset n)).toNat = 0x9 * 2 ^ 60 + n * 2 ^ 48

/-- 30_encoding.md R87: the worked encodings and the illegal words beside them. -/
def Obligations.WorkedEncodingsDecode : Prop :=
  decode 0x1000000000000064 = .ok (.edge 0 100)
  ∧ decode 0x100100000000EA60 = .ok (.edge 1 60000)
  ∧ decode 0x2000000000000000 = .ok (.ovf 0)
  ∧ decode 0x5000000000000008 = .ok (.read 0 8)
  ∧ decode 0x8000100000000000 = .ok (.rdreg 0 .qOcc)
  ∧ decode 0x8000200000000000 = .ok (.rdreg 0 .tmrTrk)
  ∧ decode 0x0000000000000000 = .error .reservedOp
  ∧ decode 0x2000000000000001 = .error .argNonzero
  ∧ decode 0x8000050000000000 = .error .reservedSel

/-! ### Steps and events -/

/-- 20_memory.md R55, R57; 30_encoding.md R74: the next event's word, decoded, is executed on the state the earlier steps
left, with the event's draw. -/
def Obligations.StepRunsTheDecodedCommand : Prop :=
  ∀ (s : State) (w : Word) (draw : Bool) (rest : List Event) (i : Instr),
    s.inputs = .cmd w draw :: rest → decode w = .ok i → step s = exec i { s with inputs := rest, initOk := draw }

/-- 30_encoding.md R80, R82: an illegal word answers `(ERR_ILLEGAL, [])` and changes no state; every other word is a
command. -/
def Obligations.IllegalWordAnswersErrIllegal : Prop :=
  ∀ (s : State) (w : Word) (draw : Bool) (rest : List Event), s.inputs = .cmd w draw :: rest →
    (IllegalWord w →
      step s = .next { s with inputs := rest, outputs := s.outputs ++ [⟨.errIllegal, [], none⟩] })
    ∧ (¬ IllegalWord w → ∃ i, decode w = .ok i)

/-- 70_reset_and_hazards.md R230: Reset puts every element at its reset value, emits no NOTIFY and returns (OK, []).
No slot counts as written after it: its content is unspecified. -/
def Obligations.ResetEventPutsResetValues : Prop :=
  ∀ (s : State) (rest : List Event), s.cfg.wf = true → s.inputs = .reset :: rest →
    ∃ t, step s = .next t ∧ t.cfg = s.cfg ∧ t.inputs = rest ∧ t.outputs = s.outputs ++ [⟨.ok, [], none⟩]
      ∧ t.ch.length = s.cfg.numCh ∧ t.trk.length = s.cfg.numTmr ∧ t.q.length = s.cfg.numQ
      ∧ (∀ c < s.cfg.numCh, (t.chan c).last = 0 ∧ (t.chan c).level = false ∧ (t.chan c).prior = false
          ∧ (t.chan c).snap = 0 ∧ (t.chan c).armed = false)
      ∧ (∀ tm < s.cfg.numTmr, t.trkAt tm = 0)
      ∧ (∀ k < s.cfg.numQ, (t.queue k).occ = 0 ∧ (t.queue k).rd = 0 ∧ (t.queue k).wm.toNat = s.cfg.capOf k / 2
          ∧ (t.queue k).drop = 0 ∧ (t.queue k).store = [])

/-- 70_reset_and_hazards.md R231, for the reset state of every configuration: every channel IDLE and unarmed, its edges
IGNORED, FALLING expected, every tally 0, every queue empty with its default watermark, OVF accepted at once. -/
def Obligations.StateAfterReset : Prop :=
  (∀ g : Cfg, g.wf = true →
    (∀ c < g.numCh, ((State.resetWith g).chan c).prior = false ∧ ((State.resetWith g).chan c).armed = false
      ∧ ((State.resetWith g).chan c).expect = .falling ∧ (State.resetWith g).tally c = 0
      ∧ ∀ raw, Raises (.edge c raw) (State.resetWith g) .ignored)
    ∧ (∀ k < g.numQ, (State.resetWith g).content k = [] ∧ ((State.resetWith g).queue k).wm.toNat = g.capOf k / 2)
    ∧ (∀ tm < g.numTmr, ∃ t, Completes (.ovf tm) (State.resetWith g) ⟨.ok, [], none⟩ t ∧ (t.trkAt tm).toNat = 1))
  ∧ ∃ g : Cfg, g.wf = true ∧ State.reset = State.resetWith g

/-- 60_exceptions.md R202: no status is a trap; every event is taken, whatever happened before it, gives one response
with a status, and never stops the machine. The configuration is never written (10_state.md R37). That a step is taken
at all with no event left is the model's own choice (log entry 5, DESIGN CHOICE), which the first clause covers too. -/
def Obligations.EveryEventHasExactlyOneStep : Prop :=
  (∀ s : State, ∃ t, step s = .next t ∧ t.cfg = s.cfg)
  ∧ ∀ (s : State) (e : Event) (rest : List Event), s.inputs = e :: rest →
      ∃ t o, step s = .next t ∧ t.inputs = rest ∧ t.outputs = s.outputs ++ [o]

/-- Log entry 5 (DESIGN CHOICE, the model's own; 60_exceptions.md R213): with no event to take, a step changes nothing. -/
def Obligations.NoEventNoChange : Prop :=
  ∀ s : State, s.inputs = [] → step s = .next s

/-- 60_exceptions.md R201: the priority of the conditions, and that every status but OK and DROPPED leaves the state
unchanged. -/
def Obligations.StatusFollowsThePriority : Prop :=
  (∀ (s : State) (w : Word) (draw : Bool) (rest : List Event) (e : DecodeError),
    s.inputs = .cmd w draw :: rest → decode w = .error e →
      step s = .next { s with inputs := rest, outputs := s.outputs ++ [⟨.errIllegal, [], none⟩] })
  ∧ (∀ (s : State) (i : Instr), IdOutOfRange s i → Raises i s .errId)
  ∧ ∀ (s : State) (i : Instr), ¬ IdOutOfRange s i →
      ∃ t o, exec i s = .next t ∧ t.outputs = s.outputs ++ [o] ∧ StatusOfInRange s i o.status
        ∧ (o.status ≠ .ok → o.status ≠ .dropped → Raises i s o.status)

/-- 60_exceptions.md R200: the seven codes, which differ; 0x7 to 0xF are never produced. -/
def Obligations.StatusCodeNumbers : Prop :=
  [Status.ok, .dropped, .ignored, .errIllegal, .errId, .errRange, .errInit].map (fun st => st.code.toNat)
    = [0x0, 0x1, 0x2, 0x3, 0x4, 0x5, 0x6]
  ∧ ∀ st : Status, st.code.toNat < 0x7

/-! ### CaptureChannel -/

/-- 40_capture_channel.md R101: EDGE in IDLE records the value, starts LOW, goes ACTIVE, zeroes the tally, and emits no
sample. -/
def Obligations.EdgeInIdleStartsTheChannel : Prop :=
  ∀ (s : State) (c : Nat) (raw : Arg), s.Inv → c < s.cfg.numCh → (s.chan c).armed = true →
    raw.toNat < s.cfg.modOf (s.cfg.tmrOf c) → (s.chan c).prior = false →
    ∃ t, Completes (.edge c raw) s ⟨.ok, [], none⟩ t
      ∧ (t.chan c).last = raw ∧ (t.chan c).level = false ∧ (t.chan c).prior = true ∧ (t.chan c).armed = true
      ∧ TallyReset c s t ∧ KeepsOtherChannels c s t ∧ t.q = s.q ∧ KeepsAllSlots s t

/-- 40_capture_channel.md R102 (the duration), R104's successful PUSH, 42_sample_queue.md R152: EDGE in ACTIVE with room
in the queue appends one sample at the tail with the level from before the toggle, toggles, zeroes the tally, re-bases. -/
def Obligations.EdgeInActiveStoresTheSample : Prop :=
  ∀ (s : State) (c k : Nat) (raw : Arg), s.Inv → c < s.cfg.numCh → (s.chan c).armed = true →
    raw.toNat < s.cfg.modOf (s.cfg.tmrOf c) → (s.chan c).prior = true → k = s.cfg.qOf c →
    (s.queue k).occ < s.cfg.capOf k →
    ∃ t x, Completes (.edge c raw) s ⟨.ok, [], if (s.queue k).wm.toNat = (s.queue k).occ + 1 then some k else none⟩ t
      ∧ (x.dur.toNat : Int) = elapsedCount s c raw % (2 ^ s.cfg.wDur : Nat) ∧ x.lvl = (s.chan c).level
      ∧ t.content k = s.content k ++ [x] ∧ (t.queue k).occ = (s.queue k).occ + 1
      ∧ (t.queue k).rd = (s.queue k).rd ∧ (t.queue k).wm = (s.queue k).wm ∧ (t.queue k).drop = (s.queue k).drop
      ∧ t.memRead k (s.tailSlot k) = x ∧ KeepsOtherSlots k (s.tailSlot k) s t ∧ KeepsOtherQueues k s t
      ∧ (t.chan c).level = !(s.chan c).level ∧ (t.chan c).last = raw ∧ (t.chan c).prior = true
      ∧ (t.chan c).armed = true ∧ TallyReset c s t ∧ KeepsOtherChannels c s t

/-- 40_capture_channel.md R105, 42_sample_queue.md R151: with the queue full the sample is lost, `drop` counts it modulo
2^32, EDGE answers DROPPED, and the channel advances as on success. -/
def Obligations.EdgeOnAFullQueueDropsTheSample : Prop :=
  ∀ (s : State) (c k : Nat) (raw : Arg), s.Inv → c < s.cfg.numCh → (s.chan c).armed = true →
    raw.toNat < s.cfg.modOf (s.cfg.tmrOf c) → (s.chan c).prior = true → k = s.cfg.qOf c →
    (s.queue k).occ = s.cfg.capOf k →
    ∃ t, Completes (.edge c raw) s ⟨.dropped, [], none⟩ t
      ∧ (t.queue k).drop.toNat = ((s.queue k).drop.toNat + 1) % 2 ^ 32
      ∧ t.content k = s.content k ∧ (t.queue k).occ = (s.queue k).occ ∧ (t.queue k).rd = (s.queue k).rd
      ∧ (t.queue k).wm = (s.queue k).wm ∧ KeepsAllSlots s t ∧ KeepsOtherQueues k s t
      ∧ (t.chan c).level = !(s.chan c).level ∧ (t.chan c).last = raw ∧ (t.chan c).prior = true
      ∧ (t.chan c).armed = true ∧ TallyReset c s t ∧ KeepsOtherChannels c s t

/-- 40_capture_channel.md R107 (a) to (d): the duration of the sample that the edge stores, when nothing or one whole
period elapsed, when an uncounted overflow makes it negative, and when the count reaches 2^W_DUR. -/
def Obligations.EdgeCornerDurations : Prop :=
  ∀ (s : State) (c k : Nat) (raw : Arg), s.Inv → c < s.cfg.numCh → (s.chan c).armed = true →
    raw.toNat < s.cfg.modOf (s.cfg.tmrOf c) → (s.chan c).prior = true → k = s.cfg.qOf c →
    (s.queue k).occ < s.cfg.capOf k →
    ∃ t x, exec (.edge c raw) s = .next t ∧ t.content k = s.content k ++ [x]
      ∧ (s.tally c = 0 → raw = (s.chan c).last → x.dur = 0)
      ∧ (s.tally c = 1 → raw = (s.chan c).last → x.dur.toNat = s.cfg.modOf (s.cfg.tmrOf c) % 2 ^ s.cfg.wDur)
      ∧ (s.tally c = 0 → raw.toNat < (s.chan c).last.toNat → (s.chan c).last.toNat - raw.toNat ≤ 2 ^ s.cfg.wDur →
          x.dur.toNat = 2 ^ s.cfg.wDur - ((s.chan c).last.toNat - raw.toNat))
      ∧ (s.tally c * s.cfg.modOf (s.cfg.tmrOf c) = 2 ^ s.cfg.wDur → raw = (s.chan c).last → x.dur = 0)

/-- 40_capture_channel.md R109: after a completed EDGE the opposite transition is expected: RISING after the IDLE branch
and when the new level is LOW, FALLING when it is HIGH. -/
def Obligations.ExpectIsOppositeAfterEdge : Prop :=
  ∀ (s : State) (c : Nat) (raw : Arg), s.Inv → c < s.cfg.numCh → (s.chan c).armed = true →
    raw.toNat < s.cfg.modOf (s.cfg.tmrOf c) →
    ∃ t, exec (.edge c raw) s = .next t
      ∧ ((s.chan c).prior = false → (t.chan c).expect = .rising)
      ∧ ((s.chan c).prior = true → (s.chan c).level = true → (t.chan c).level = false ∧ (t.chan c).expect = .rising)
      ∧ ((s.chan c).prior = true → (s.chan c).level = false → (t.chan c).level = true ∧ (t.chan c).expect = .falling)

/-- 40_capture_channel.md R100: ResetTally's effect in each mode; the tally is 0 right after it. -/
def Obligations.ResetTallyZeroesTheTally : Prop :=
  ∀ (s : State) (c : Nat), s.Inv → c < s.cfg.numCh →
    TallyReset c s (resetTally c s) ∧ KeepsOtherChannels c s (resetTally c s) ∧ (resetTally c s).q = s.q

/-- 40_capture_channel.md R110: CHRESET returns the channel to IDLE without touching its armed bit or its queue. -/
def Obligations.ChresetReturnsToIdle : Prop :=
  ∀ (s : State) (c : Nat), s.Inv →
    (s.cfg.numCh ≤ c → Raises (.chreset c) s .errId)
    ∧ (c < s.cfg.numCh → ∃ t, Completes (.chreset c) s ⟨.ok, [], none⟩ t
        ∧ (t.chan c).last = 0 ∧ (t.chan c).level = false ∧ (t.chan c).prior = false
        ∧ (t.chan c).armed = (s.chan c).armed
        ∧ TallyReset c s t ∧ KeepsOtherChannels c s t ∧ t.q = s.q ∧ KeepsAllSlots s t)

/-- 40_capture_channel.md R113: after the first edge, edges with any number of overflows (below 2^W_TRK) before each emit
samples of duration `(c1 + k * MOD - c0) mod 2^W_DUR`, levels LOW, HIGH, LOW, ... In both modes: no other channel acts. -/
def Obligations.EdgeRunDecodesDurationsAndLevels : Prop :=
  ∀ (s : State) (c k : Nat) (first : Arg) (l : List (Nat × Arg)), s.Inv → c < s.cfg.numCh →
    (s.chan c).armed = true → (s.chan c).prior = false → k = s.cfg.qOf c →
    first.toNat < s.cfg.modOf (s.cfg.tmrOf c) →
    (∀ e ∈ l, e.1 < 2 ^ s.cfg.wTrk ∧ e.2.toNat < s.cfg.modOf (s.cfg.tmrOf c)) →
    (s.queue k).occ + l.length ≤ s.cfg.capOf k →
    ∃ t, execAll (.edge c first :: edgeRun c (s.cfg.tmrOf c) l) s = .next t
      ∧ (t.content k).map (fun x => (x.dur.toNat, x.lvl)) = (s.content k).map (fun x => (x.dur.toNat, x.lvl))
          ++ emittedSamples s.cfg.wDur (s.cfg.modOf (s.cfg.tmrOf c)) first.toNat false l

/-! ### OverflowTracker -/

/-- 41_overflow_tracker.md R130: OVF adds one to its tracker modulo 2^W_TRK, writes nothing else, and in SNAPSHOT mode
raises the tally of every channel on the timer by one. -/
def Obligations.OvfCountsOneOverflow : Prop :=
  ∀ (s : State) (tm : Nat), s.Inv →
    (s.cfg.numTmr ≤ tm → Raises (.ovf tm) s .errId)
    ∧ (tm < s.cfg.numTmr → ∃ t, Completes (.ovf tm) s ⟨.ok, [], none⟩ t
        ∧ (t.trkAt tm).toNat = ((s.trkAt tm).toNat + 1) % 2 ^ s.cfg.wTrk
        ∧ KeepsOtherTrackers tm s t ∧ t.ch = s.ch ∧ t.q = s.q ∧ KeepsAllSlots s t
        ∧ (s.cfg.ovfMode = .snapshot → ∀ c < s.cfg.numCh, s.cfg.tmrOf c = tm →
            t.tally c = (s.tally c + 1) % 2 ^ s.cfg.wTrk))

/-- 41_overflow_tracker.md R133: in SNAPSHOT mode only OVF of the timer and Reset change a tracker. -/
def Obligations.SnapshotTrackerWrittenOnlyByOvfAndReset : Prop :=
  ∀ (s t : State) (tm : Nat), s.cfg.ovfMode = .snapshot → step s = .next t → t.trkAt tm ≠ s.trkAt tm →
    (∃ w draw rest, s.inputs = .cmd w draw :: rest ∧ decode w = .ok (.ovf tm))
    ∨ ∃ rest, s.inputs = .reset :: rest

/-- 41_overflow_tracker.md R132: in SNAPSHOT mode nothing but OVF of its own timer and the channel's own EDGE, OPEN and
CHRESET changes a channel's tally, whatever the other channels do. -/
def Obligations.SnapshotTallyIgnoresOtherCommands : Prop :=
  ∀ (s t : State) (i : Instr) (c : Nat), s.cfg.ovfMode = .snapshot → exec i s = .next t →
    (∀ raw, i ≠ .edge c raw) → i ≠ .openCh c → i ≠ .chreset c → i ≠ .ovf (s.cfg.tmrOf c) → t.tally c = s.tally c

/-- 41_overflow_tracker.md R134: in SHARED_RESET mode every EDGE, OPEN or CHRESET of any channel on a timer that completes
clears the tally of every channel on it: the hazard of R139. -/
def Obligations.SharedResetClearsEveryTallyOnTheTimer : Prop :=
  ∀ (s t : State) (i : Instr) (a b : Nat) (o : StepOutput), s.Inv → s.cfg.ovfMode = .sharedReset →
    b < s.cfg.numCh → s.cfg.tmrOf a = s.cfg.tmrOf b →
    ((∃ raw, i = .edge b raw) ∨ i = .openCh b ∨ i = .chreset b) →
    exec i s = .next t → t.outputs = s.outputs ++ [o] → (o.status = .ok ∨ o.status = .dropped) → t.tally a = 0

/-- 41_overflow_tracker.md R137: with one channel to a timer the two modes give the same responses, samples and
notifications for every event sequence that reads neither TMR_TRK nor CH_SNAP; CH_OVF agrees. The reset states
correspond. -/
def Obligations.ModesAgreeOnOneChannelTimers : Prop :=
  (∀ (s u : State) (n : Nat), s.Inv → u.Inv → ModeEq s u → OneChannelPerTimer s.cfg →
    (∀ e ∈ s.inputs, ¬ e.readsTracker) →
    ∃ s' u' : State, Sys2Proof.core.run n s = .next s' ∧ Sys2Proof.core.run n u = .next u' ∧ ModeEq s' u')
  ∧ ∀ (g : Cfg) (evs : List Event), g.wf = true → g.ovfMode = .snapshot →
      ModeEq { State.resetWith g with inputs := evs }
        { State.resetWith { g with ovfMode := .sharedReset } with inputs := evs }

/-! ### SampleQueue -/

/-- 42_sample_queue.md R155, R157: READ returns the first `min(max, occ)` samples of `Q(k)`, oldest first, as sample
words, leaves the rest, and writes only `rd` and `occ`. -/
def Obligations.ReadDrainsOldestFirst : Prop :=
  ∀ (s : State) (c k : Nat) (max : Arg), s.Inv → k = s.cfg.qOf c →
    (s.cfg.numCh ≤ c → Raises (.read c max) s .errId)
    ∧ (c < s.cfg.numCh → ∃ t n, n = min max.toNat (s.queue k).occ
        ∧ Completes (.read c max) s ⟨.ok, ((s.content k).take n).map sampleWord, none⟩ t
        ∧ t.content k = (s.content k).drop n ∧ (t.queue k).occ = (s.queue k).occ - n
        ∧ (t.queue k).rd = ((s.queue k).rd + n) % s.cfg.capOf k
        ∧ (t.queue k).wm = (s.queue k).wm ∧ (t.queue k).drop = (s.queue k).drop
        ∧ KeepsAllSlots s t ∧ KeepsOtherQueues k s t ∧ t.ch = s.ch ∧ t.trk = s.trk)

/-- 30_encoding.md R86: DRAIN is the word of READ with max 0xFFFFFFFF, and it removes every held sample. -/
def Obligations.DrainEmptiesTheQueue : Prop :=
  (∀ c < 256, decode (BitVec.ofNat 64 (0x5 * 2 ^ 60 + c * 2 ^ 48 + 0xFFFFFFFF)) = .ok (.read c 0xFFFFFFFF))
  ∧ ∀ (s : State) (c : Nat), s.Inv → c < s.cfg.numCh →
      ∃ t, Completes (.read c 0xFFFFFFFF) s ⟨.ok, (s.content (s.cfg.qOf c)).map sampleWord, none⟩ t
        ∧ t.content (s.cfg.qOf c) = []

/-- 42_sample_queue.md R160: CLEAR empties the queue unconditionally; `rd`, the storage, `wm` and `drop` are kept. -/
def Obligations.ClearEmptiesTheQueue : Prop :=
  ∀ (s : State) (c k : Nat), s.Inv → k = s.cfg.qOf c →
    (s.cfg.numCh ≤ c → Raises (.clear c) s .errId)
    ∧ (c < s.cfg.numCh → ∃ t, Completes (.clear c) s ⟨.ok, [], none⟩ t
        ∧ (t.queue k).occ = 0 ∧ t.content k = [] ∧ (t.queue k).rd = (s.queue k).rd
        ∧ (t.queue k).wm = (s.queue k).wm ∧ (t.queue k).drop = (s.queue k).drop
        ∧ KeepsAllSlots s t ∧ KeepsOtherQueues k s t ∧ t.ch = s.ch ∧ t.trk = s.trk)

/-- 42_sample_queue.md R167 (b): a full queue, cleared, takes the next sample and holds it alone. -/
def Obligations.ClearThenEdgeHoldsOneSample : Prop :=
  ∀ (s : State) (c k : Nat) (raw : Arg), s.Inv → c < s.cfg.numCh → (s.chan c).armed = true →
    raw.toNat < s.cfg.modOf (s.cfg.tmrOf c) → (s.chan c).prior = true → k = s.cfg.qOf c →
    (s.queue k).occ = s.cfg.capOf k →
    ∃ t u x, exec (.clear c) s = .next t ∧ exec (.edge c raw) t = .next u
      ∧ u.content k = [x] ∧ x.lvl = (s.chan c).level ∧ (u.queue k).occ = 1 ∧ (u.queue k).drop = (s.queue k).drop

/-- 42_sample_queue.md R165: SETWM stores any 32-bit value as it is, and writes nothing else. -/
def Obligations.SetwmStoresAnyValue : Prop :=
  ∀ (s : State) (c k : Nat) (value : Arg), s.Inv → k = s.cfg.qOf c →
    (s.cfg.numCh ≤ c → Raises (.setwm c value) s .errId)
    ∧ (c < s.cfg.numCh → ∃ t, Completes (.setwm c value) s ⟨.ok, [], none⟩ t
        ∧ (t.queue k).wm = value ∧ t.content k = s.content k ∧ (t.queue k).occ = (s.queue k).occ
        ∧ (t.queue k).rd = (s.queue k).rd ∧ (t.queue k).drop = (s.queue k).drop
        ∧ KeepsAllSlots s t ∧ KeepsOtherQueues k s t ∧ t.ch = s.ch ∧ t.trk = s.trk)

/-- 42_sample_queue.md R153: `NOTIFY(k)` is emitted by a successful PUSH that takes the occupancy from `wm - 1` to `wm`, and
by nothing else any command does. -/
def Obligations.NotifyExactlyOnTheCrossing : Prop :=
  ∀ (s t : State) (i : Instr) (k : Nat), s.Inv → exec i s = .next t →
    ((∃ st data, t.outputs = s.outputs ++ [⟨st, data, some k⟩]) ↔
      ∃ c raw, i = .edge c raw ∧ c < s.cfg.numCh ∧ (s.chan c).armed = true
        ∧ raw.toNat < s.cfg.modOf (s.cfg.tmrOf c) ∧ (s.chan c).prior = true ∧ s.cfg.qOf c = k
        ∧ (s.queue k).occ < s.cfg.capOf k ∧ (s.queue k).wm.toNat = (s.queue k).occ + 1)

/-- 20_memory.md R57, R58; 40_capture_channel.md R108; 42_sample_queue.md R157: whatever the command, a queue only loses
its oldest samples and only gains one at the tail, and it gains one only by EDGE of an armed ACTIVE channel of its own. -/
def Obligations.FifoOrderIsKept : Prop :=
  ∀ (s t : State) (i : Instr) (k : Nat), s.Inv → k < s.cfg.numQ → exec i s = .next t →
    (∃ n, t.content k = (s.content k).drop n)
    ∨ ∃ c raw x, i = .edge c raw ∧ (s.chan c).armed = true ∧ (s.chan c).prior = true ∧ s.cfg.qOf c = k
        ∧ t.content k = s.content k ++ [x]

/-- 42_sample_queue.md R163: READ, CLEAR and SETWM through any channel mapped to a queue act on that queue alike. -/
def Obligations.QueueCommandsAgreeThroughAnyChannel : Prop :=
  ∀ (s : State) (c c' : Nat) (a : Arg), c < s.cfg.numCh → c' < s.cfg.numCh → s.cfg.qOf c = s.cfg.qOf c' →
    exec (.read c a) s = exec (.read c' a) s ∧ exec (.clear c) s = exec (.clear c') s
      ∧ exec (.setwm c a) s = exec (.setwm c' a) s

/-- 30_encoding.md R76: the layout of a sample word; a W_DUR-bit duration is read back from the low W_DUR bits, and the
bits from there up to bit 31 are 0. -/
def Obligations.SampleWordLayout : Prop :=
  ∀ x : Sample, (sampleWord x).extractLsb' 0 32 = x.dur ∧ (sampleWord x).getLsbD 32 = x.lvl
    ∧ (sampleWord x).extractLsb' 33 31 = 0
    ∧ ∀ n ≤ 32, x.dur.toNat < 2 ^ n →
        (sampleWord x).toNat % 2 ^ n = x.dur.toNat ∧ (sampleWord x).toNat % 2 ^ 32 < 2 ^ n

/-- 10_state.md R35: states that differ only in `rd` and in slots outside `Q(k)` give the same outputs to every later
event sequence, and go on differing in nothing else. -/
def Obligations.HiddenReadIndexIsUnobservable : Prop :=
  ∀ (s u : State) (n : Nat), s.Inv → u.Inv → s.ObsEq u →
    ∃ s' u' : State, Sys2Proof.core.run n s = .next s' ∧ Sys2Proof.core.run n u = .next u' ∧ s'.ObsEq u'

/-! ### Control -/

/-- 43_control.md R180: OPEN with `init_ok` 0 answers ERR_INIT and changes nothing; with 1 it resets the channel, its
tally and its queue, and arms capture. -/
def Obligations.OpenResetsAndArms : Prop :=
  ∀ (s : State) (c k : Nat), s.Inv → k = s.cfg.qOf c →
    (s.cfg.numCh ≤ c → Raises (.openCh c) s .errId)
    ∧ (c < s.cfg.numCh → s.initOk = false → Raises (.openCh c) s .errInit)
    ∧ (c < s.cfg.numCh → s.initOk = true → ∃ t, Completes (.openCh c) s ⟨.ok, [], none⟩ t
        ∧ (t.chan c).last = 0 ∧ (t.chan c).level = false ∧ (t.chan c).prior = false ∧ (t.chan c).armed = true
        ∧ TallyReset c s t ∧ KeepsOtherChannels c s t
        ∧ (t.queue k).occ = 0 ∧ (t.queue k).rd = 0 ∧ (t.queue k).wm.toNat = s.cfg.capOf k / 2
        ∧ (t.queue k).drop = 0 ∧ t.content k = [] ∧ KeepsOtherQueues k s t ∧ KeepsAllSlots s t)

/-- 43_control.md R183: CLOSE clears `armed` and nothing else. -/
def Obligations.CloseDisarms : Prop :=
  ∀ (s : State) (c : Nat), s.Inv →
    (s.cfg.numCh ≤ c → Raises (.close c) s .errId)
    ∧ (c < s.cfg.numCh → ∃ t, Completes (.close c) s ⟨.ok, [], none⟩ t
        ∧ (t.chan c).armed = false ∧ (t.chan c).last = (s.chan c).last ∧ (t.chan c).level = (s.chan c).level
        ∧ (t.chan c).prior = (s.chan c).prior ∧ (t.chan c).snap = (s.chan c).snap
        ∧ KeepsOtherChannels c s t ∧ t.trk = s.trk ∧ t.q = s.q ∧ KeepsAllSlots s t)

/-- 43_control.md R185, with the values of 10_state.md R33: RDREG answers one word, the register's number zero-extended,
and changes nothing else. -/
def Obligations.RdregAnswersTheRegister : Prop :=
  ∀ (s : State) (id : Nat) (r : Reg), s.Inv →
    (RdregIdOutOfRange s id r → Raises (.rdreg id r) s .errId)
    ∧ (¬ RdregIdOutOfRange s id r →
        ∃ v : Word, exec (.rdreg id r) s = .next (s.emitOutput ⟨.ok, [v], none⟩) ∧ v.toNat = registerNumber s id r)

/-- 10_state.md R31: the armed bit is set by OPEN of the channel with a successful draw, cleared by its CLOSE and by
Reset, and changed by nothing else. -/
def Obligations.ArmedChangesOnlyByOpenCloseReset : Prop :=
  ∀ (s t : State) (c : Nat), step s = .next t → (t.chan c).armed ≠ (s.chan c).armed →
    (∃ w rest, s.inputs = .cmd w true :: rest ∧ decode w = .ok (.openCh c) ∧ (t.chan c).armed = true)
    ∨ (∃ w draw rest, s.inputs = .cmd w draw :: rest ∧ decode w = .ok (.close c) ∧ (t.chan c).armed = false)
    ∨ ∃ rest, s.inputs = .reset :: rest ∧ (t.chan c).armed = false

/-- 30_encoding.md R74: the environment's draw matters to OPEN alone. -/
def Obligations.DrawIsReadByOpenAlone : Prop :=
  ∀ (s t : State) (i : Instr) (draw : Bool), (∀ c, i ≠ .openCh c) → exec i s = .next t →
    exec i { s with initOk := draw } = .next { t with initOk := draw }

/-! ### The invariant -/

/-- The invariant holds after reset, for every legal configuration, with any events still to come; and in the model's
reset state (log entry 1: its configuration is the model's choice). -/
def Obligations.InvariantHoldsAfterReset : Prop :=
  (∀ (g : Cfg) (evs : List Event), g.wf = true → State.Inv { State.resetWith g with inputs := evs }) ∧ State.reset.Inv

/-- Every step from a state that meets the invariant keeps it: memory stays canonical, every register keeps its range
(10_state.md R22, R26, R27, R29, R30, R34), every held slot has been written (20_memory.md R53). -/
def Obligations.EveryStepKeepsTheInvariant : Prop :=
  ∀ s t : State, s.Inv → step s = .next t → t.Inv

/-- 10_state.md R26: in every state reachable from reset, whatever the events, an IDLE channel has level 0 and last 0,
and `last` is below the timer's modulus. -/
def Obligations.ReachableStatesMeetChannelInvariants : Prop :=
  ∀ (g : Cfg) (evs : List Event) (n : Nat) (t : State), g.wf = true →
    Sys2Proof.core.run n ({ State.resetWith g with inputs := evs } : State) = .next t →
    ∀ c < g.numCh, ((t.chan c).prior = false → (t.chan c).level = false ∧ (t.chan c).last = 0)
      ∧ (t.chan c).last.toNat < g.modOf (g.tmrOf c)
end

