-- ==== Sys2Proof/Laws/Config.lean ====
section
/-! SUPPORT. What a legal configuration gives (00_scope.md R8). -/

namespace Sys2Proof.Cfg

theorem wf_chan {g : Cfg} (h : g.wf = true) {c : Nat} (hc : c < g.numCh) :
    g.tmrOf c < g.numTmr ∧ g.qOf c < g.numQ := by
  simp only [Cfg.wf, Bool.and_eq_true, List.all_eq_true] at h
  have hb := h.1.1.1.1.2 (g.chan[c]) (List.getElem_mem hc)
  simp only [Binding.wf, Bool.and_eq_true, decide_eq_true_eq] at hb
  unfold Cfg.numCh at hc
  simpa [Cfg.tmrOf, Cfg.qOf, Cfg.numTmr, Cfg.numQ, hc] using hb

theorem wf_cap {g : Cfg} (h : g.wf = true) {k : Nat} (hk : k < g.numQ) :
    1 ≤ g.capOf k ∧ g.capOf k ≤ 2 ^ 32 - 1 := by
  simp only [Cfg.wf, Bool.and_eq_true, List.all_eq_true] at h
  have hb := h.1.1.2 (g.cap[k]) (List.getElem_mem hk)
  simp only [capOk, Bool.and_eq_true, decide_eq_true_eq] at hb
  unfold Cfg.numQ at hk
  simpa [Cfg.capOf, hk] using hb

theorem wf_mod {g : Cfg} (h : g.wf = true) {t : Nat} (ht : t < g.numTmr) :
    2 ≤ g.modOf t ∧ g.modOf t ≤ 2 ^ 32 := by
  simp only [Cfg.wf, Bool.and_eq_true, List.all_eq_true] at h
  have hb := h.1.1.1.2 (g.mod[t]) (List.getElem_mem ht)
  simp only [modOk, Bool.and_eq_true, decide_eq_true_eq] at hb
  unfold Cfg.numTmr at ht
  simpa [Cfg.modOf, ht] using hb

theorem wf_widths {g : Cfg} (h : g.wf = true) :
    (1 ≤ g.wDur ∧ g.wDur ≤ 32) ∧ 1 ≤ g.wTrk ∧ g.wTrk ≤ 64 := by
  simp only [Cfg.wf, wDurOk, wTrkOk, Bool.and_eq_true, decide_eq_true_eq] at h
  exact ⟨h.1.2, h.2⟩

theorem wf_counts {g : Cfg} (h : g.wf = true) : g.numCh ≤ 256 ∧ g.numTmr ≤ 256 ∧ g.numQ ≤ 256 := by
  simp only [Cfg.wf, countOk, Bool.and_eq_true, decide_eq_true_eq] at h
  exact ⟨h.1.1.1.1.1.1.1.2, h.1.1.1.1.1.1.2.2, h.1.1.1.1.1.2.2⟩

end Sys2Proof.Cfg
end

