-- ==== Sys2Proof/Laws/Encoding.lean ====
section
/-! SUPPORT. The fields of a packed word, and every field of a word as a number (30_encoding.md R70, R71). -/

namespace Sys2Proof

theorem toNat_append_add {m n : Nat} (x : BitVec m) (y : BitVec n) :
    (x ++ y).toNat = x.toNat * 2 ^ n + y.toNat := by
  rw [BitVec.toNat_append, ← Nat.shiftLeft_add_eq_or_of_lt y.isLt, Nat.shiftLeft_eq]

theorem packWord_toNat (o i s a) : (packWord o i s a).toNat =
    o.toNat * 2 ^ 60 + i.toNat * 2 ^ 48 + s.toNat * 2 ^ 40 + a.toNat := by
  simp only [packWord, toNat_append_add, BitVec.toNat_ofNat]
  omega

theorem opField_toNat (w : Word) : (opField w).toNat = w.toNat / 2 ^ 60 % 2 ^ 4 := by
  simp [opField, Nat.shiftRight_eq_div_pow]
theorem rsv1Field_toNat (w : Word) : (rsv1Field w).toNat = w.toNat / 2 ^ 56 % 2 ^ 4 := by
  simp [rsv1Field, Nat.shiftRight_eq_div_pow]
theorem idField_toNat (w : Word) : (idField w).toNat = w.toNat / 2 ^ 48 % 2 ^ 8 := by
  simp [idField, Nat.shiftRight_eq_div_pow]
theorem selField_toNat (w : Word) : (selField w).toNat = w.toNat / 2 ^ 40 % 2 ^ 8 := by
  simp [selField, Nat.shiftRight_eq_div_pow]
theorem rsv2Field_toNat (w : Word) : (rsv2Field w).toNat = w.toNat / 2 ^ 32 % 2 ^ 8 := by
  simp [rsv2Field, Nat.shiftRight_eq_div_pow]
theorem argField_toNat (w : Word) : (argField w).toNat = w.toNat % 2 ^ 32 := by simp [argField]

/-- The six fields of a packed word. -/
theorem packWord_fields (o i s a) :
    opField (packWord o i s a) = o ∧ rsv1Field (packWord o i s a) = 0 ∧ idField (packWord o i s a) = i
      ∧ selField (packWord o i s a) = s ∧ rsv2Field (packWord o i s a) = 0 ∧ argField (packWord o i s a) = a := by
  have ho := o.isLt
  have hi := i.isLt
  have hs := s.isLt
  have ha := a.isLt
  refine ⟨?_, ?_, ?_, ?_, ?_, ?_⟩ <;> apply BitVec.eq_of_toNat_eq
  · rw [opField_toNat, packWord_toNat]; omega
  · rw [rsv1Field_toNat, packWord_toNat]; show _ = 0; omega
  · rw [idField_toNat, packWord_toNat]; omega
  · rw [selField_toNat, packWord_toNat]; omega
  · rw [rsv2Field_toNat, packWord_toNat]; show _ = 0; omega
  · rw [argField_toNat, packWord_toNat]; omega

/-- Two words with the same fields are one. -/
theorem eq_of_fields_eq {w v : Word} (h1 : opField w = opField v) (h2 : rsv1Field w = rsv1Field v)
    (h3 : idField w = idField v) (h4 : selField w = selField v) (h5 : rsv2Field w = rsv2Field v)
    (h6 : argField w = argField v) : w = v := by
  apply BitVec.eq_of_toNat_eq
  replace h1 := congrArg BitVec.toNat h1
  replace h2 := congrArg BitVec.toNat h2
  replace h3 := congrArg BitVec.toNat h3
  replace h4 := congrArg BitVec.toNat h4
  replace h5 := congrArg BitVec.toNat h5
  replace h6 := congrArg BitVec.toNat h6
  rw [opField_toNat, opField_toNat] at h1
  rw [rsv1Field_toNat, rsv1Field_toNat] at h2
  rw [idField_toNat, idField_toNat] at h3
  rw [selField_toNat, selField_toNat] at h4
  rw [rsv2Field_toNat, rsv2Field_toNat] at h5
  rw [argField_toNat, argField_toNat] at h6
  have := w.isLt
  have := v.isLt
  omega

theorem ofBits_bits (op : Opcode) : Opcode.ofBits op.bits = some op := by cases op <;> rfl

theorem bits_of_ofBits {b : BitVec 4} {op : Opcode} (h : Opcode.ofBits b = some op) : op.bits = b := by
  unfold Opcode.ofBits at h
  split at h <;> cases h <;> apply BitVec.eq_of_toNat_eq <;> simp [*, Opcode.bits]

theorem ofSel_sel (r : Reg) : Reg.ofSel r.sel = some r := by cases r <;> rfl

theorem sel_of_ofSel {b : BitVec 8} {r : Reg} (h : Reg.ofSel b = some r) : r.sel = b := by
  unfold Reg.ofSel at h
  split at h <;> cases h <;> apply BitVec.eq_of_toNat_eq <;> simp [*, Reg.sel]

end Sys2Proof
end

