-- ==== Sys2Proof/Laws/Memory.lean ====
section
/-! SUPPORT. The sample storage: a write is read back, leaves every other slot alone, and keeps the canonical form
(00_scope.md R14; 20_memory.md R50). -/

namespace Sys2Proof.Machine.Memory

/-- What a write leaves in the list: the new entry and old ones. -/
theorem mem_write {m : Memory} {i : Nat} {x : Sample} {e : Nat × Sample} (h : e ∈ m.write i x) :
    e = (i, x) ∨ e ∈ m := by
  induction m with
  | nil => simpa [write] using h
  | cons a m ih =>
    obtain ⟨j, y⟩ := a
    simp only [write] at h
    split at h
    · simpa using h
    · split at h
      · rcases List.mem_cons.1 h with h | h
        · exact .inl h
        · exact .inr (List.mem_cons_of_mem _ h)
      · rcases List.mem_cons.1 h with h | h
        · exact .inr (by simp [h])
        · exact (ih h).imp_right (List.mem_cons_of_mem _)

/-- A write keeps the canonical form. -/
theorem write_wf {m : Memory} {i : Nat} {x : Sample} (h : m.wf) : (m.write i x).wf := by
  induction m with
  | nil => simp [write]
  | cons a m ih =>
    obtain ⟨j, y⟩ := a
    obtain ⟨hj, hm⟩ := List.pairwise_cons.1 h
    simp only [write]
    split
    next hij =>
      refine List.pairwise_cons.2 ⟨fun e he => ?_, h⟩
      rcases List.mem_cons.1 he with rfl | he
      · exact hij
      · exact Nat.lt_trans hij (hj e he)
    next hij =>
      split
      next heq => subst heq; exact List.pairwise_cons.2 ⟨hj, hm⟩
      next hne =>
        refine List.pairwise_cons.2 ⟨fun e he => ?_, ih hm⟩
        rcases mem_write he with rfl | he
        · show j < i; omega
        · exact hj e he

/-- A write is read back. -/
@[simp] theorem find?_write_self (m : Memory) (i : Nat) (x : Sample) : (m.write i x).find? i = some x := by
  induction m with
  | nil => simp [write, find?]
  | cons a m ih =>
    obtain ⟨j, y⟩ := a
    simp only [write]
    split
    · simp [find?]
    · split
      · simp [find?]
      · rename_i hne
        simp [find?, hne, ih]

/-- A write leaves every other slot alone. -/
theorem find?_write_of_ne {m : Memory} {i i' : Nat} {x : Sample} (h : i' ≠ i) :
    (m.write i x).find? i' = m.find? i' := by
  induction m with
  | nil => simp [write, find?, h]
  | cons a m ih =>
    obtain ⟨j, y⟩ := a
    simp only [write]
    split
    · simp [find?, h]
    · split
      next heq => subst heq; simp [find?, h]
      next => simp only [find?]; split <;> simp [ih]

/-- What is found in a store is an entry of it. -/
theorem mem_of_find? {m : Memory} {i : Nat} {x : Sample} (h : m.find? i = some x) : (i, x) ∈ m := by
  induction m with
  | nil => simp [find?] at h
  | cons a m ih =>
    obtain ⟨j, y⟩ := a
    simp only [find?] at h
    split at h
    next heq => cases h; simp [heq]
    next => exact List.mem_cons_of_mem _ (ih h)

end Sys2Proof.Machine.Memory
end

