-- ==== Sys2Proof/Laws/State.lean ====
section
/-! SUPPORT. One lemma per field per update of the state, and what each accessor reads after each update. -/

namespace Sys2Proof.Machine.State

variable (s : State)

/-! ### `setChan` -/

@[simp] theorem setChan_cfg (c x) : (s.setChan c x).cfg = s.cfg := rfl
@[simp] theorem setChan_ch (c x) : (s.setChan c x).ch = s.ch.set c x := rfl
@[simp] theorem setChan_trk (c x) : (s.setChan c x).trk = s.trk := rfl
@[simp] theorem setChan_q (c x) : (s.setChan c x).q = s.q := rfl
@[simp] theorem setChan_epoch (c x) : (s.setChan c x).epoch = s.epoch := rfl
@[simp] theorem setChan_initOk (c x) : (s.setChan c x).initOk = s.initOk := rfl
@[simp] theorem setChan_inputs (c x) : (s.setChan c x).inputs = s.inputs := rfl
@[simp] theorem setChan_outputs (c x) : (s.setChan c x).outputs = s.outputs := rfl
@[simp] theorem setChan_trkAt (c x t) : (s.setChan c x).trkAt t = s.trkAt t := rfl
@[simp] theorem setChan_queue (c x k) : (s.setChan c x).queue k = s.queue k := rfl
@[simp] theorem setChan_memRead (c x k i) : (s.setChan c x).memRead k i = s.memRead k i := rfl
@[simp] theorem setChan_slotOf (c x k i) : (s.setChan c x).slotOf k i = s.slotOf k i := rfl
@[simp] theorem setChan_content (c x k) : (s.setChan c x).content k = s.content k := rfl

/-! ### `setTrk` -/

@[simp] theorem setTrk_cfg (t v) : (s.setTrk t v).cfg = s.cfg := rfl
@[simp] theorem setTrk_ch (t v) : (s.setTrk t v).ch = s.ch := rfl
@[simp] theorem setTrk_trk (t v) : (s.setTrk t v).trk = s.trk.set t v := rfl
@[simp] theorem setTrk_q (t v) : (s.setTrk t v).q = s.q := rfl
@[simp] theorem setTrk_epoch (t v) : (s.setTrk t v).epoch = s.epoch := rfl
@[simp] theorem setTrk_initOk (t v) : (s.setTrk t v).initOk = s.initOk := rfl
@[simp] theorem setTrk_inputs (t v) : (s.setTrk t v).inputs = s.inputs := rfl
@[simp] theorem setTrk_outputs (t v) : (s.setTrk t v).outputs = s.outputs := rfl
@[simp] theorem setTrk_chan (t v c) : (s.setTrk t v).chan c = s.chan c := rfl
@[simp] theorem setTrk_queue (t v k) : (s.setTrk t v).queue k = s.queue k := rfl
@[simp] theorem setTrk_memRead (t v k i) : (s.setTrk t v).memRead k i = s.memRead k i := rfl
@[simp] theorem setTrk_slotOf (t v k i) : (s.setTrk t v).slotOf k i = s.slotOf k i := rfl
@[simp] theorem setTrk_content (t v k) : (s.setTrk t v).content k = s.content k := rfl

/-! ### `setQueue` -/

@[simp] theorem setQueue_cfg (k x) : (s.setQueue k x).cfg = s.cfg := rfl
@[simp] theorem setQueue_ch (k x) : (s.setQueue k x).ch = s.ch := rfl
@[simp] theorem setQueue_trk (k x) : (s.setQueue k x).trk = s.trk := rfl
@[simp] theorem setQueue_q (k x) : (s.setQueue k x).q = s.q.set k x := rfl
@[simp] theorem setQueue_epoch (k x) : (s.setQueue k x).epoch = s.epoch := rfl
@[simp] theorem setQueue_initOk (k x) : (s.setQueue k x).initOk = s.initOk := rfl
@[simp] theorem setQueue_inputs (k x) : (s.setQueue k x).inputs = s.inputs := rfl
@[simp] theorem setQueue_outputs (k x) : (s.setQueue k x).outputs = s.outputs := rfl
@[simp] theorem setQueue_chan (k x c) : (s.setQueue k x).chan c = s.chan c := rfl
@[simp] theorem setQueue_trkAt (k x t) : (s.setQueue k x).trkAt t = s.trkAt t := rfl
@[simp] theorem setQueue_tally (k x c) : (s.setQueue k x).tally c = s.tally c := rfl
@[simp] theorem setQueue_freeSlot (k x j i) : (s.setQueue k x).freeSlot j i = s.freeSlot j i := rfl
@[simp] theorem setQueue_setQueue (k x y) : (s.setQueue k x).setQueue k y = s.setQueue k y := by
  simp [setQueue]

/-! ### `emitOutput` -/

@[simp] theorem emitOutput_cfg (o) : (s.emitOutput o).cfg = s.cfg := rfl
@[simp] theorem emitOutput_ch (o) : (s.emitOutput o).ch = s.ch := rfl
@[simp] theorem emitOutput_trk (o) : (s.emitOutput o).trk = s.trk := rfl
@[simp] theorem emitOutput_q (o) : (s.emitOutput o).q = s.q := rfl
@[simp] theorem emitOutput_epoch (o) : (s.emitOutput o).epoch = s.epoch := rfl
@[simp] theorem emitOutput_initOk (o) : (s.emitOutput o).initOk = s.initOk := rfl
@[simp] theorem emitOutput_inputs (o) : (s.emitOutput o).inputs = s.inputs := rfl
@[simp] theorem emitOutput_outputs (o) : (s.emitOutput o).outputs = s.outputs ++ [o] := rfl
@[simp] theorem emitOutput_chan (o c) : (s.emitOutput o).chan c = s.chan c := rfl
@[simp] theorem emitOutput_trkAt (o t) : (s.emitOutput o).trkAt t = s.trkAt t := rfl
@[simp] theorem emitOutput_queue (o k) : (s.emitOutput o).queue k = s.queue k := rfl
@[simp] theorem emitOutput_tally (o c) : (s.emitOutput o).tally c = s.tally c := rfl
@[simp] theorem emitOutput_memRead (o k i) : (s.emitOutput o).memRead k i = s.memRead k i := rfl
@[simp] theorem emitOutput_slotOf (o k i) : (s.emitOutput o).slotOf k i = s.slotOf k i := rfl
@[simp] theorem emitOutput_content (o k) : (s.emitOutput o).content k = s.content k := rfl

/-! ### Delivering an event: the `inputs` and `initOk` fields -/

@[simp] theorem withInputs_chan (l c) : ({ s with inputs := l } : State).chan c = s.chan c := rfl
@[simp] theorem withInputs_trkAt (l t) : ({ s with inputs := l } : State).trkAt t = s.trkAt t := rfl
@[simp] theorem withInputs_queue (l k) : ({ s with inputs := l } : State).queue k = s.queue k := rfl
@[simp] theorem withInputs_tally (l c) : ({ s with inputs := l } : State).tally c = s.tally c := rfl
@[simp] theorem withInputs_memRead (l k i) : ({ s with inputs := l } : State).memRead k i = s.memRead k i := rfl
@[simp] theorem withInputs_content (l k) : ({ s with inputs := l } : State).content k = s.content k := rfl
@[simp] theorem withDraw_chan (b c) : ({ s with initOk := b } : State).chan c = s.chan c := rfl
@[simp] theorem withDraw_trkAt (b t) : ({ s with initOk := b } : State).trkAt t = s.trkAt t := rfl
@[simp] theorem withDraw_queue (b k) : ({ s with initOk := b } : State).queue k = s.queue k := rfl
@[simp] theorem withDraw_tally (b c) : ({ s with initOk := b } : State).tally c = s.tally c := rfl
@[simp] theorem withDraw_memRead (b k i) : ({ s with initOk := b } : State).memRead k i = s.memRead k i := rfl
@[simp] theorem withDraw_content (b k) : ({ s with initOk := b } : State).content k = s.content k := rfl

/-! ### Reading back what was written -/

theorem chan_setChan_self {s : State} {c : Nat} {x : Channel} (h : c < s.ch.length) : (s.setChan c x).chan c = x := by
  simp [chan, setChan, h]

@[simp] theorem chan_setChan_of_ne {s : State} {c c' : Nat} {x : Channel} (h : c' ≠ c) :
    (s.setChan c x).chan c' = s.chan c' := by
  simp [chan, setChan, List.getElem?_set_ne h.symm]

theorem trkAt_setTrk_self {s : State} {t : Nat} {v : BitVec 64} (h : t < s.trk.length) :
    (s.setTrk t v).trkAt t = v := by
  simp [trkAt, setTrk, h]

@[simp] theorem trkAt_setTrk_of_ne {s : State} {t t' : Nat} {v : BitVec 64} (h : t' ≠ t) :
    (s.setTrk t v).trkAt t' = s.trkAt t' := by
  simp [trkAt, setTrk, List.getElem?_set_ne h.symm]

theorem queue_setQueue_self {s : State} {k : Nat} {x : Queue} (h : k < s.q.length) : (s.setQueue k x).queue k = x := by
  simp [queue, setQueue, h]

@[simp] theorem queue_setQueue_of_ne {s : State} {k k' : Nat} {x : Queue} (h : k' ≠ k) :
    (s.setQueue k x).queue k' = s.queue k' := by
  simp [queue, setQueue, List.getElem?_set_ne h.symm]

/-- Writing back the queue that stands there changes nothing. -/
theorem setQueue_queue_self {s : State} {k : Nat} : s.setQueue k (s.queue k) = s := by
  by_cases h : k < s.q.length
  · simp [setQueue, queue, List.getD_eq_getElem?_getD, h]
  · simp [setQueue, List.set_eq_of_length_le (Nat.le_of_not_lt h)]

/-! ### The reset state -/

@[simp] theorem resetWith_cfg (g : Cfg) : (resetWith g).cfg = g := rfl
@[simp] theorem resetWith_inputs (g : Cfg) : (resetWith g).inputs = [] := rfl
@[simp] theorem resetWith_outputs (g : Cfg) : (resetWith g).outputs = [] := rfl

@[simp] theorem resetWith_chan (g : Cfg) (c : Nat) : (resetWith g).chan c = Channel.reset := by
  by_cases h : c < g.numCh <;> simp [chan, resetWith, h]

@[simp] theorem resetWith_trkAt (g : Cfg) (t : Nat) : (resetWith g).trkAt t = 0 := by
  by_cases h : t < g.numTmr <;> simp [trkAt, resetWith, h]

@[simp] theorem resetWith_queue (g : Cfg) (k : Nat) : (resetWith g).queue k = Queue.reset g k := by
  by_cases h : k < g.numQ <;> simp [queue, resetWith, h]

end Sys2Proof.Machine.State
end

