-- ==== Sys2Proof/Laws/Ops.lean ====
section
/-! SUPPORT. One law per shared operation: ending a command (00_scope.md R15), MemRead and MemWrite (R14), ResetTally
(40_capture_channel.md R100), PUSH (42_sample_queue.md R150) and the removal of samples (R155). -/

namespace Sys2Proof.Machine

/-! ### Ending a command -/

@[simp] theorem respond_eq_next (st d n s) : respond st d n s = .next (s.emitOutput ⟨st, d, n⟩) := rfl

@[simp] theorem raise_eq_next (st s) : raise st s = .next (s.emitOutput ⟨st, [], none⟩) := rfl

/-! ### Sample storage -/

@[simp] theorem memWrite_cfg (s : State) (k i x) : (s.memWrite k i x).cfg = s.cfg := rfl
@[simp] theorem memWrite_chan (s : State) (k i x c) : (s.memWrite k i x).chan c = s.chan c := rfl
@[simp] theorem memWrite_trkAt (s : State) (k i x t) : (s.memWrite k i x).trkAt t = s.trkAt t := rfl

theorem memWrite_queue_self {s : State} {k i : Nat} {x : Sample} (h : k < s.q.length) :
    (s.memWrite k i x).queue k = { s.queue k with store := (s.queue k).store.write i x } :=
  State.queue_setQueue_self h

/-- What a slot reads as depends on its queue's storage alone. -/
theorem memRead_congr {s t : State} {k i : Nat} (hc : t.cfg = s.cfg) (he : t.epoch = s.epoch)
    (h : (t.queue k).store.find? i = (s.queue k).store.find? i) : t.memRead k i = s.memRead k i := by
  simp only [State.memRead, h, State.freeSlot, hc, he]

/-- Writing a queue with an unchanged storage leaves every slot as it reads. -/
theorem memRead_setQueue_of_store {s : State} {k : Nat} {x : Queue} (h : x.store = (s.queue k).store) (k' i : Nat) :
    (s.setQueue k x).memRead k' i = s.memRead k' i := by
  refine memRead_congr rfl rfl ?_
  by_cases hk : k' = k
  · subst hk
    by_cases hl : k' < s.q.length
    · rw [State.queue_setQueue_self hl, h]
    · rw [show s.setQueue k' x = s by simp [State.setQueue, List.set_eq_of_length_le (Nat.le_of_not_lt hl)]]
  · rw [State.queue_setQueue_of_ne hk]

theorem memRead_memWrite_self {s : State} {k i : Nat} {x : Sample} (h : k < s.q.length) :
    (s.memWrite k i x).memRead k i = x := by
  simp [State.memRead, memWrite_queue_self h]

theorem memRead_memWrite_of_ne {s : State} {k i k' i' : Nat} {x : Sample} (h : ¬ (k' = k ∧ i' = i)) :
    (s.memWrite k i x).memRead k' i' = s.memRead k' i' := by
  refine memRead_congr rfl rfl ?_
  by_cases hk : k' = k
  · subst hk
    have hi : i' ≠ i := fun hi => h ⟨rfl, hi⟩
    by_cases hl : k' < s.q.length
    · rw [memWrite_queue_self hl]; exact Memory.find?_write_of_ne hi
    · rw [State.memWrite, show ∀ y, s.setQueue k' y = s by
        simp [State.setQueue, List.set_eq_of_length_le (Nat.le_of_not_lt hl)]]
  · rw [State.memWrite, State.queue_setQueue_of_ne hk]

/-- The abstract content depends on the ring position, the occupancy and the slots. -/
theorem content_congr {s t : State} {k : Nat} (hc : t.cfg = s.cfg) (hr : (t.queue k).rd = (s.queue k).rd)
    (ho : (t.queue k).occ = (s.queue k).occ) (hm : ∀ i, t.memRead k i = s.memRead k i) : t.content k = s.content k := by
  simp [State.content, State.slotOf, hc, hr, ho, hm]

@[simp] theorem content_length (s : State) (k : Nat) : (s.content k).length = (s.queue k).occ := by
  simp [State.content]

/-! ### The tally in each mode (10_state.md R24) -/

theorem tally_snapshot {s : State} {c : Nat} (h : s.cfg.ovfMode = .snapshot) : s.tally c =
    (((s.trkAt (s.cfg.tmrOf c)).toNat - (s.chan c).snap.toNat : Int) % (2 ^ s.cfg.wTrk : Nat)).toNat := by
  simp [State.tally, h]

theorem tally_sharedReset {s : State} {c : Nat} (h : s.cfg.ovfMode = .sharedReset) :
    s.tally c = (s.trkAt (s.cfg.tmrOf c)).toNat := by
  simp [State.tally, h]

/-! ### ResetTally (40_capture_channel.md R100) -/

@[simp] theorem resetTally_cfg (c s) : (resetTally c s).cfg = s.cfg := by unfold resetTally; split <;> rfl
@[simp] theorem resetTally_q (c s) : (resetTally c s).q = s.q := by unfold resetTally; split <;> rfl
@[simp] theorem resetTally_epoch (c s) : (resetTally c s).epoch = s.epoch := by unfold resetTally; split <;> rfl
@[simp] theorem resetTally_initOk (c s) : (resetTally c s).initOk = s.initOk := by unfold resetTally; split <;> rfl
@[simp] theorem resetTally_inputs (c s) : (resetTally c s).inputs = s.inputs := by unfold resetTally; split <;> rfl
@[simp] theorem resetTally_outputs (c s) : (resetTally c s).outputs = s.outputs := by unfold resetTally; split <;> rfl
@[simp] theorem resetTally_queue (c s k) : (resetTally c s).queue k = s.queue k := by unfold resetTally; split <;> rfl
@[simp] theorem resetTally_memRead (c s k i) : (resetTally c s).memRead k i = s.memRead k i := by
  unfold resetTally; split <;> rfl
@[simp] theorem resetTally_slotOf (c s k i) : (resetTally c s).slotOf k i = s.slotOf k i := by
  unfold resetTally; split <;> rfl
@[simp] theorem resetTally_content (c s k) : (resetTally c s).content k = s.content k := by
  unfold resetTally; split <;> rfl

@[simp] theorem resetTally_ch_length (c s) : (resetTally c s).ch.length = s.ch.length := by
  unfold resetTally; split <;> simp

@[simp] theorem resetTally_trk_length (c s) : (resetTally c s).trk.length = s.trk.length := by
  unfold resetTally; split <;> simp

theorem resetTally_chan_of_ne {c c' s} (h : c' ≠ c) : (resetTally c s).chan c' = s.chan c' := by
  unfold resetTally; split <;> simp [h]

theorem resetTally_trkAt_of_ne {c t s} (h : t ≠ s.cfg.tmrOf c) : (resetTally c s).trkAt t = s.trkAt t := by
  unfold resetTally; split <;> simp [h]

/-- SNAPSHOT mode: the snapshot is taken, no tracker is written. -/
theorem resetTally_snapshot {c s} (h : s.cfg.ovfMode = .snapshot) :
    resetTally c s = s.setChan c { s.chan c with snap := s.trkAt (s.cfg.tmrOf c) } := by
  simp [resetTally, h]

/-- SHARED_RESET mode: the tracker is cleared, no channel is written. -/
theorem resetTally_sharedReset {c s} (h : s.cfg.ovfMode = .sharedReset) :
    resetTally c s = s.setTrk (s.cfg.tmrOf c) 0 := by
  simp [resetTally, h]

/-- The channel's own record after ResetTally: only `snap` may have changed. -/
theorem resetTally_chan_self {c s} (hc : c < s.ch.length) :
    (resetTally c s).chan c =
      { s.chan c with
        snap := match s.cfg.ovfMode with
          | .snapshot => s.trkAt (s.cfg.tmrOf c)
          | .sharedReset => (s.chan c).snap } := by
  cases h : s.cfg.ovfMode
  · simp only [resetTally_snapshot h]
    exact State.chan_setChan_self hc
  · simp only [resetTally_sharedReset h]
    rfl

/-! ### PUSH (42_sample_queue.md R150) -/

theorem pushStore_eq {k x s} (h : k < s.q.length) :
    pushStore k x s = s.setQueue k
      { s.queue k with store := (s.queue k).store.write (s.tailSlot k) x, occ := (s.queue k).occ + 1 } := by
  simp only [pushStore, memWrite_queue_self h]
  simp [State.memWrite]

/-- PUSH writes its queue and nothing else. -/
theorem pushState_eq {k x s} (h : k < s.q.length) : ∃ y, pushState k x s = s.setQueue k y := by
  unfold pushState
  split
  · exact ⟨_, rfl⟩
  · exact ⟨_, pushStore_eq h⟩

theorem pushState_full {k x s} (h : (s.queue k).occ = s.cfg.capOf k) : pushState k x s = pushDrop k s := by
  simp [pushState, State.queueFull, h]

theorem pushState_notFull {k x s} (h : (s.queue k).occ ≠ s.cfg.capOf k) : pushState k x s = pushStore k x s := by
  simp [pushState, State.queueFull, h]

/-- A store slot other than the tail's reads as before. -/
theorem pushStore_memRead_of_ne {k x s k' i} (hne : ¬ (k' = k ∧ i = s.tailSlot k)) :
    (pushStore k x s).memRead k' i = s.memRead k' i := by
  refine (memRead_setQueue_of_store (s := s.memWrite k (s.tailSlot k) x) ?_ k' i).trans (memRead_memWrite_of_ne hne)
  rfl

theorem pushStore_memRead_tail {k x s} (h : k < s.q.length) :
    (pushStore k x s).memRead k (s.tailSlot k) = x := by
  refine (memRead_setQueue_of_store (s := s.memWrite k (s.tailSlot k) x) ?_ k _).trans (memRead_memWrite_self h)
  rfl

/-- Two offsets below CAP name two slots. -/
theorem slotOf_inj {s : State} {k i j : Nat} (hi : i < s.cfg.capOf k) (hj : j < s.cfg.capOf k)
    (h : s.slotOf k i = s.slotOf k j) : i = j := by
  unfold State.slotOf at h
  have := Nat.ModEq.add_left_cancel' _ (show Nat.ModEq _ _ _ from h)
  exact Nat.ModEq.eq_of_lt_of_lt this hi hj

/-- A PUSH that succeeds appends to `Q(k)` (42_sample_queue.md R152). -/
theorem pushStore_content {k x s} (h : k < s.q.length) (hocc : (s.queue k).occ < s.cfg.capOf k) :
    (pushStore k x s).content k = s.content k ++ [x] := by
  have hq : ((pushStore k x s).queue k).occ = (s.queue k).occ + 1 := by
    rw [pushStore_eq h, State.queue_setQueue_self h]
  have hslot : ∀ i, (pushStore k x s).slotOf k i = s.slotOf k i := fun i => by
    rw [pushStore_eq h]; simp [State.slotOf, State.queue_setQueue_self h]
  unfold State.content
  rw [hq, List.range_succ, List.map_append]
  congr 1
  · refine List.map_congr_left fun i hi => ?_
    have hi := List.mem_range.1 hi
    rw [hslot, pushStore_memRead_of_ne]
    rintro ⟨-, he⟩
    exact absurd (slotOf_inj (by omega) hocc he) (by omega)
  · simp only [List.map_cons, List.map_nil, hslot]
    exact congrArg (· :: []) (pushStore_memRead_tail h)

/-! ### Removing samples (42_sample_queue.md R155) -/

/-- Removing the `n` oldest samples drops them from `Q(k)` (42_sample_queue.md R157). -/
theorem dequeue_content {k n s} (h : k < s.q.length) :
    (dequeue k n s).content k = (s.content k).drop n := by
  have hm : ∀ i, (dequeue k n s).memRead k i = s.memRead k i := fun i =>
    memRead_setQueue_of_store (x := { s.queue k with rd := s.slotOf k n, occ := (s.queue k).occ - n }) rfl k i
  have hq : (dequeue k n s).queue k = { s.queue k with rd := s.slotOf k n, occ := (s.queue k).occ - n } :=
    State.queue_setQueue_self h
  have hslot : ∀ i, (dequeue k n s).slotOf k i = s.slotOf k (n + i) := fun i => by
    simp only [State.slotOf, hq]
    simp [dequeue, Nat.add_assoc]
  refine List.ext_getElem (by simp [hq]) fun i h₁ h₂ => ?_
  simp [State.content, hslot, hm]

/-- The data words of a READ are the sample words of the oldest samples. -/
theorem readData_eq {s : State} {k n : Nat} (hn : n ≤ (s.queue k).occ) :
    s.readData k n = ((s.content k).take n).map sampleWord := by
  refine List.ext_getElem (by simp [State.readData, hn]) fun i h₁ h₂ => ?_
  simp [State.readData, State.content]

/-! ### What writing one queue does to the contents (10_state.md R30) -/

theorem content_eq_nil {s : State} {k : Nat} (h : (s.queue k).occ = 0) : s.content k = [] := by
  simp [State.content, h]

/-- Another queue's content is unchanged. -/
theorem content_setQueue_of_ne {s : State} {k k' : Nat} {x : Queue} (h : k' ≠ k) :
    (s.setQueue k x).content k' = s.content k' :=
  content_congr rfl (by rw [State.queue_setQueue_of_ne h]) (by rw [State.queue_setQueue_of_ne h]) fun _ =>
    memRead_congr rfl rfl (by rw [State.queue_setQueue_of_ne h])

/-- Writing `wm` and `drop` alone changes no content. -/
theorem content_setQueue_of_same {s : State} {k k' : Nat} {x : Queue} (hk : k < s.q.length)
    (hs : x.store = (s.queue k).store) (hr : x.rd = (s.queue k).rd) (ho : x.occ = (s.queue k).occ) :
    (s.setQueue k x).content k' = s.content k' := by
  by_cases he : k' = k
  · subst he
    exact content_congr rfl (by rw [State.queue_setQueue_self hk, hr]) (by rw [State.queue_setQueue_self hk, ho])
      fun _ => memRead_setQueue_of_store hs _ _
  · exact content_setQueue_of_ne he

/-! ### The fields a shared operation does not write -/

@[simp] theorem pushDrop_cfg (k s) : (pushDrop k s).cfg = s.cfg := rfl
@[simp] theorem pushDrop_ch (k s) : (pushDrop k s).ch = s.ch := rfl
@[simp] theorem pushDrop_trk (k s) : (pushDrop k s).trk = s.trk := rfl
@[simp] theorem pushDrop_epoch (k s) : (pushDrop k s).epoch = s.epoch := rfl
@[simp] theorem pushDrop_initOk (k s) : (pushDrop k s).initOk = s.initOk := rfl
@[simp] theorem pushDrop_inputs (k s) : (pushDrop k s).inputs = s.inputs := rfl
@[simp] theorem pushDrop_outputs (k s) : (pushDrop k s).outputs = s.outputs := rfl
@[simp] theorem pushStore_cfg (k x s) : (pushStore k x s).cfg = s.cfg := rfl
@[simp] theorem pushStore_ch (k x s) : (pushStore k x s).ch = s.ch := rfl
@[simp] theorem pushStore_trk (k x s) : (pushStore k x s).trk = s.trk := rfl
@[simp] theorem pushStore_epoch (k x s) : (pushStore k x s).epoch = s.epoch := rfl
@[simp] theorem pushStore_initOk (k x s) : (pushStore k x s).initOk = s.initOk := rfl
@[simp] theorem pushStore_inputs (k x s) : (pushStore k x s).inputs = s.inputs := rfl
@[simp] theorem pushStore_outputs (k x s) : (pushStore k x s).outputs = s.outputs := rfl
@[simp] theorem pushState_cfg (k x s) : (pushState k x s).cfg = s.cfg := by unfold pushState; split <;> rfl
@[simp] theorem pushState_ch (k x s) : (pushState k x s).ch = s.ch := by unfold pushState; split <;> rfl
@[simp] theorem pushState_trk (k x s) : (pushState k x s).trk = s.trk := by unfold pushState; split <;> rfl
@[simp] theorem pushState_epoch (k x s) : (pushState k x s).epoch = s.epoch := by unfold pushState; split <;> rfl
@[simp] theorem pushState_initOk (k x s) : (pushState k x s).initOk = s.initOk := by unfold pushState; split <;> rfl
@[simp] theorem pushState_inputs (k x s) : (pushState k x s).inputs = s.inputs := by unfold pushState; split <;> rfl
@[simp] theorem pushState_outputs (k x s) : (pushState k x s).outputs = s.outputs := by unfold pushState; split <;> rfl
@[simp] theorem pushState_chan (k x s c) : (pushState k x s).chan c = s.chan c := by unfold pushState; split <;> rfl
@[simp] theorem pushState_trkAt (k x s t) : (pushState k x s).trkAt t = s.trkAt t := by unfold pushState; split <;> rfl
@[simp] theorem pushState_tally (k x s c) : (pushState k x s).tally c = s.tally c := by unfold pushState; split <;> rfl
@[simp] theorem dequeue_cfg (k n s) : (dequeue k n s).cfg = s.cfg := rfl
@[simp] theorem dequeue_ch (k n s) : (dequeue k n s).ch = s.ch := rfl
@[simp] theorem dequeue_trk (k n s) : (dequeue k n s).trk = s.trk := rfl
@[simp] theorem dequeue_epoch (k n s) : (dequeue k n s).epoch = s.epoch := rfl
@[simp] theorem dequeue_initOk (k n s) : (dequeue k n s).initOk = s.initOk := rfl
@[simp] theorem dequeue_inputs (k n s) : (dequeue k n s).inputs = s.inputs := rfl
@[simp] theorem dequeue_outputs (k n s) : (dequeue k n s).outputs = s.outputs := rfl
@[simp] theorem openQueue_cfg (k s) : (openQueue k s).cfg = s.cfg := rfl
@[simp] theorem openQueue_ch (k s) : (openQueue k s).ch = s.ch := rfl
@[simp] theorem openQueue_trk (k s) : (openQueue k s).trk = s.trk := rfl
@[simp] theorem openQueue_epoch (k s) : (openQueue k s).epoch = s.epoch := rfl
@[simp] theorem openQueue_initOk (k s) : (openQueue k s).initOk = s.initOk := rfl
@[simp] theorem openQueue_inputs (k s) : (openQueue k s).inputs = s.inputs := rfl
@[simp] theorem openQueue_outputs (k s) : (openQueue k s).outputs = s.outputs := rfl
@[simp] theorem openState_cfg (c s) : (openState c s).cfg = s.cfg := by simp [openState]
@[simp] theorem openState_epoch (c s) : (openState c s).epoch = s.epoch := by simp [openState]
@[simp] theorem openState_initOk (c s) : (openState c s).initOk = s.initOk := by simp [openState]
@[simp] theorem openState_inputs (c s) : (openState c s).inputs = s.inputs := by simp [openState]
@[simp] theorem openState_outputs (c s) : (openState c s).outputs = s.outputs := by simp [openState]

end Sys2Proof.Machine
end

