-- ==== Sys2Proof/Laws/Exec.lean ====
section
/-! SUPPORT. What any command does to the fields around ECAP's own state: it gives one output and keeps the rest. -/

namespace Sys2Proof.Machine

/-- A state that differs from `s` in ECAP's own elements alone (`ch`, `trk`, `q`). -/
structure KeepsSurroundings (s u : State) : Prop where
  cfg     : u.cfg = s.cfg
  epoch   : u.epoch = s.epoch
  initOk  : u.initOk = s.initOk
  inputs  : u.inputs = s.inputs
  outputs : u.outputs = s.outputs

theorem KeepsSurroundings.refl (s : State) : KeepsSurroundings s s := ⟨rfl, rfl, rfl, rfl, rfl⟩

/-- Every command ends by giving one output on a state that keeps the surroundings. -/
theorem exec_emits (i : Instr) (s : State) :
    ∃ u o, exec i s = .next (u.emitOutput o) ∧ KeepsSurroundings s u := by
  cases i with
  | edge c raw =>
    simp only [exec, execEdge]
    split
    · exact ⟨_, _, rfl, .refl s⟩
    split
    · exact ⟨_, _, rfl, .refl s⟩
    split
    · exact ⟨_, _, rfl, .refl s⟩
    split
    · exact ⟨_, _, rfl, by constructor <;> simp⟩
    · exact ⟨_, _, rfl, by constructor <;> simp⟩
  | ovf t =>
    simp only [exec, execOvf]
    split
    · exact ⟨_, _, rfl, .refl s⟩
    · exact ⟨_, _, rfl, by constructor <;> simp⟩
  | openCh c =>
    simp only [exec, execOpen]
    split
    · exact ⟨_, _, rfl, .refl s⟩
    split
    · exact ⟨_, _, rfl, .refl s⟩
    · exact ⟨_, _, rfl, by constructor <;> simp⟩
  | close c =>
    simp only [exec, execClose]
    split
    · exact ⟨_, _, rfl, .refl s⟩
    · exact ⟨_, _, rfl, by constructor <;> simp⟩
  | read c max =>
    simp only [exec, execRead]
    split
    · exact ⟨_, _, rfl, .refl s⟩
    · exact ⟨_, _, rfl, by constructor <;> simp⟩
  | clear c =>
    simp only [exec, execClear]
    split
    · exact ⟨_, _, rfl, .refl s⟩
    · exact ⟨_, _, rfl, by constructor <;> simp⟩
  | setwm c value =>
    simp only [exec, execSetwm]
    split
    · exact ⟨_, _, rfl, .refl s⟩
    · exact ⟨_, _, rfl, by constructor <;> simp⟩
  | rdreg id reg =>
    simp only [exec, execRdreg]
    by_cases h : (!(if reg.namesTimer then s.validTmr id else s.validChan id)) = true
    · rw [if_pos h]; exact ⟨_, _, rfl, .refl s⟩
    · rw [if_neg h]; exact ⟨_, _, rfl, .refl s⟩
  | chreset c =>
    simp only [exec, execChreset]
    split
    · exact ⟨_, _, rfl, .refl s⟩
    · exact ⟨_, _, rfl, by constructor <;> simp⟩

/-! ### The branch a command takes -/

/-- What a command that answers `t` did: it raised a status and changed nothing, or its own rule's effect happened,
with the conditions under which that branch is taken. -/
inductive CommandCase (s : State) : Instr → State → Prop where
  | raised (i : Instr) (st : Status) (hst : st.completes = false) : CommandCase s i (s.emitOutput ⟨st, [], none⟩)
  | edgeIdle (c : Nat) (raw : Arg) (hc : c < s.cfg.numCh) (ha : (s.chan c).armed = true)
      (hr : raw.toNat < s.cfg.modOf (s.cfg.tmrOf c)) (hp : (s.chan c).prior = false) :
      CommandCase s (.edge c raw)
        ((resetTally c (s.setChan c ((s.chan c).started raw))).emitOutput ⟨.ok, [], none⟩)
  | edgeStored (c : Nat) (raw : Arg) (hc : c < s.cfg.numCh) (ha : (s.chan c).armed = true)
      (hr : raw.toNat < s.cfg.modOf (s.cfg.tmrOf c)) (hp : (s.chan c).prior = true)
      (hf : (s.queue (s.cfg.qOf c)).occ ≠ s.cfg.capOf (s.cfg.qOf c)) :
      CommandCase s (.edge c raw)
        ((resetTally c ((pushStore (s.cfg.qOf c) (s.edgeSample c raw) s).setChan c
          ((s.chan c).toggled raw))).emitOutput ⟨.ok, [], pushNotify (s.cfg.qOf c) s⟩)
  | edgeDropped (c : Nat) (raw : Arg) (hc : c < s.cfg.numCh) (ha : (s.chan c).armed = true)
      (hr : raw.toNat < s.cfg.modOf (s.cfg.tmrOf c)) (hp : (s.chan c).prior = true)
      (hf : (s.queue (s.cfg.qOf c)).occ = s.cfg.capOf (s.cfg.qOf c)) :
      CommandCase s (.edge c raw)
        ((resetTally c ((pushDrop (s.cfg.qOf c) s).setChan c
          ((s.chan c).toggled raw))).emitOutput ⟨.dropped, [], none⟩)
  | ovf (t : Nat) (ht : t < s.cfg.numTmr) :
      CommandCase s (.ovf t) ((s.setTrk t (trkIncr s.cfg.wTrk (s.trkAt t))).emitOutput ⟨.ok, [], none⟩)
  | opened (c : Nat) (hc : c < s.cfg.numCh) (hd : s.initOk = true) :
      CommandCase s (.openCh c) ((openState c s).emitOutput ⟨.ok, [], none⟩)
  | closed (c : Nat) (hc : c < s.cfg.numCh) :
      CommandCase s (.close c) ((s.setChan c { s.chan c with armed := false }).emitOutput ⟨.ok, [], none⟩)
  | read (c : Nat) (max : Arg) (hc : c < s.cfg.numCh) :
      CommandCase s (.read c max)
        ((dequeue (s.cfg.qOf c) (s.readCount (s.cfg.qOf c) max) s).emitOutput
          ⟨.ok, s.readData (s.cfg.qOf c) (s.readCount (s.cfg.qOf c) max), none⟩)
  | cleared (c : Nat) (hc : c < s.cfg.numCh) :
      CommandCase s (.clear c)
        ((s.setQueue (s.cfg.qOf c) { s.queue (s.cfg.qOf c) with occ := 0 }).emitOutput ⟨.ok, [], none⟩)
  | setwm (c : Nat) (value : Arg) (hc : c < s.cfg.numCh) :
      CommandCase s (.setwm c value)
        ((s.setQueue (s.cfg.qOf c) { s.queue (s.cfg.qOf c) with wm := value }).emitOutput ⟨.ok, [], none⟩)
  | rdreg (id : Nat) (reg : Reg) (hv : (if reg.namesTimer then s.validTmr id else s.validChan id) = true) :
      CommandCase s (.rdreg id reg) (s.emitOutput ⟨.ok, [s.regValue id reg], none⟩)
  | chreset (c : Nat) (hc : c < s.cfg.numCh) :
      CommandCase s (.chreset c) ((resetTally c (s.setChan c (s.chan c).idled)).emitOutput ⟨.ok, [], none⟩)

/-- An accepted EDGE in IDLE takes the IDLE branch (40_capture_channel.md R101). -/
theorem exec_edge_idle {s : State} {c : Nat} {raw : Arg} (hc : c < s.cfg.numCh) (ha : (s.chan c).armed = true)
    (hr : raw.toNat < s.cfg.modOf (s.cfg.tmrOf c)) (hp : (s.chan c).prior = false) :
    exec (.edge c raw) s = edgeIdle c raw s := by
  simp [exec, execEdge, State.validChan, State.rawInRange, hc, ha, hr, hp]

/-- An accepted EDGE in ACTIVE takes the ACTIVE branch (40_capture_channel.md R102). -/
theorem exec_edge_active {s : State} {c : Nat} {raw : Arg} (hc : c < s.cfg.numCh) (ha : (s.chan c).armed = true)
    (hr : raw.toNat < s.cfg.modOf (s.cfg.tmrOf c)) (hp : (s.chan c).prior = true) :
    exec (.edge c raw) s = edgeActive c raw s := by
  simp [exec, execEdge, State.validChan, State.rawInRange, hc, ha, hr, hp]

theorem next_inj {s t : State} (h : (Host.Outcome.next s : Result) = .next t) : s = t := by cases h; rfl

/-- The inversion of `exec`: everything a command can do. -/
theorem exec_cases {i : Instr} {s t : State} (h : exec i s = .next t) : CommandCase s i t := by
  cases i with
  | edge c raw =>
    by_cases hc : c < s.cfg.numCh
    swap
    · rw [← next_inj ((if_pos (by simp [State.validChan, hc]) : execEdge c raw s = _).symm.trans h)]
      exact .raised _ .errId rfl
    by_cases ha : (s.chan c).armed = true
    swap
    · have : exec (.edge c raw) s = raise .ignored s := by simp [exec, execEdge, State.validChan, hc, ha]
      rw [← next_inj (this.symm.trans h)]
      exact .raised _ .ignored rfl
    by_cases hr : raw.toNat < s.cfg.modOf (s.cfg.tmrOf c)
    swap
    · have : exec (.edge c raw) s = raise .errRange s := by
        simp [exec, execEdge, State.validChan, State.rawInRange, hc, ha, hr]
      rw [← next_inj (this.symm.trans h)]
      exact .raised _ .errRange rfl
    by_cases hp : (s.chan c).prior = true
    swap
    · have hp : (s.chan c).prior = false := by simpa using hp
      rw [← next_inj ((exec_edge_idle hc ha hr hp).symm.trans h)]
      exact .edgeIdle c raw hc ha hr hp
    have he := exec_edge_active hc ha hr hp
    by_cases hf : (s.queue (s.cfg.qOf c)).occ = s.cfg.capOf (s.cfg.qOf c)
    · have hn : pushNotify (s.cfg.qOf c) s = none := by simp [pushNotify, State.queueFull, hf]
      rw [← next_inj (he.symm.trans h), pushState_full hf, hn, if_pos (by simp [State.queueFull, hf])]
      exact .edgeDropped c raw hc ha hr hp hf
    · rw [← next_inj (he.symm.trans h), pushState_notFull hf, if_neg (by simp [State.queueFull, hf])]
      exact .edgeStored c raw hc ha hr hp hf
  | ovf t' =>
    by_cases hc : t' < s.cfg.numTmr
    · rw [← next_inj ((if_neg (by simp [State.validTmr, hc]) : execOvf t' s = _).symm.trans h)]
      exact .ovf t' hc
    · rw [← next_inj ((if_pos (by simp [State.validTmr, hc]) : execOvf t' s = _).symm.trans h)]
      exact .raised _ .errId rfl
  | openCh c =>
    by_cases hc : c < s.cfg.numCh
    · by_cases hd : s.initOk = true
      · have : exec (.openCh c) s = respond .ok [] none (openState c s) := by
          simp [exec, execOpen, State.validChan, hc, hd]
        rw [← next_inj (this.symm.trans h)]
        exact .opened c hc hd
      · have : exec (.openCh c) s = raise .errInit s := by simp [exec, execOpen, State.validChan, hc, hd]
        rw [← next_inj (this.symm.trans h)]
        exact .raised _ .errInit rfl
    · rw [← next_inj ((if_pos (by simp [State.validChan, hc]) : execOpen c s = _).symm.trans h)]
      exact .raised _ .errId rfl
  | close c =>
    by_cases hc : c < s.cfg.numCh
    · rw [← next_inj ((if_neg (by simp [State.validChan, hc]) : execClose c s = _).symm.trans h)]
      exact .closed c hc
    · rw [← next_inj ((if_pos (by simp [State.validChan, hc]) : execClose c s = _).symm.trans h)]
      exact .raised _ .errId rfl
  | read c max =>
    by_cases hc : c < s.cfg.numCh
    · rw [← next_inj ((if_neg (by simp [State.validChan, hc]) : execRead c max s = _).symm.trans h)]
      exact .read c max hc
    · rw [← next_inj ((if_pos (by simp [State.validChan, hc]) : execRead c max s = _).symm.trans h)]
      exact .raised _ .errId rfl
  | clear c =>
    by_cases hc : c < s.cfg.numCh
    · rw [← next_inj ((if_neg (by simp [State.validChan, hc]) : execClear c s = _).symm.trans h)]
      exact .cleared c hc
    · rw [← next_inj ((if_pos (by simp [State.validChan, hc]) : execClear c s = _).symm.trans h)]
      exact .raised _ .errId rfl
  | setwm c value =>
    by_cases hc : c < s.cfg.numCh
    · rw [← next_inj ((if_neg (by simp [State.validChan, hc]) : execSetwm c value s = _).symm.trans h)]
      exact .setwm c value hc
    · rw [← next_inj ((if_pos (by simp [State.validChan, hc]) : execSetwm c value s = _).symm.trans h)]
      exact .raised _ .errId rfl
  | rdreg id reg =>
    by_cases hv : (if reg.namesTimer then s.validTmr id else s.validChan id) = true
    · rw [← next_inj ((if_neg (by rw [hv]; decide) : execRdreg id reg s = _).symm.trans h)]
      exact .rdreg id reg hv
    · have hv' : (if reg.namesTimer then s.validTmr id else s.validChan id) = false := Bool.eq_false_iff.2 hv
      rw [← next_inj ((if_pos (by rw [hv']; decide) : execRdreg id reg s = _).symm.trans h)]
      exact .raised _ .errId rfl
  | chreset c =>
    by_cases hc : c < s.cfg.numCh
    · rw [← next_inj ((if_neg (by simp [State.validChan, hc]) : execChreset c s = _).symm.trans h)]
      exact .chreset c hc
    · rw [← next_inj ((if_pos (by simp [State.validChan, hc]) : execChreset c s = _).symm.trans h)]
      exact .raised _ .errId rfl

/-! ### Taking the next event -/

theorem step_of_inputs {s : State} {e : Event} {rest : List Event} (h : s.inputs = e :: rest) :
    step s = takeEvent e { s with inputs := rest } := by
  simp [step, h]

theorem step_of_no_inputs {s : State} (h : s.inputs = []) : step s = .next s := by
  simp [step, h]

/-- A run of one more step, when the first answers `t`. -/
theorem run_succ {s t : State} (n : Nat) (h : step s = .next t) :
    Sys2Proof.core.run (n + 1) s = Sys2Proof.core.run n t := by
  have : Sys2Proof.core.step s = .next t := h
  simp [Host.Core.run, this]

/-- What a step that answers `t` did: nothing, a command, an illegal word, or Reset. -/
inductive StepCase (s : State) : State → Prop where
  | idle (h : s.inputs = []) : StepCase s s
  | command (w : Word) (draw : Bool) (rest : List Event) (i : Instr) (t : State) (h : s.inputs = .cmd w draw :: rest)
      (hd : decode w = .ok i) (hc : CommandCase { s with inputs := rest, initOk := draw } i t) : StepCase s t
  | illegal (w : Word) (draw : Bool) (rest : List Event) (e : DecodeError) (h : s.inputs = .cmd w draw :: rest)
      (hd : decode w = .error e) :
      StepCase s (State.emitOutput { s with inputs := rest } ⟨.errIllegal, [], none⟩)
  | reset (rest : List Event) (h : s.inputs = .reset :: rest) :
      StepCase s ((resetElements { s with inputs := rest }).emitOutput ⟨.ok, [], none⟩)

/-- The inversion of `step`. -/
theorem step_cases {s t : State} (h : step s = .next t) : StepCase s t := by
  cases hi : s.inputs with
  | nil =>
    rw [step_of_no_inputs hi] at h
    exact next_inj h ▸ .idle hi
  | cons e rest =>
    rw [step_of_inputs hi] at h
    cases e with
    | reset => exact next_inj h ▸ .reset rest hi
    | cmd w draw =>
      cases hd : decode w with
      | ok i =>
        simp only [takeEvent, takeCommand, hd] at h
        exact .command w draw rest i t hi hd (exec_cases h)
      | error e =>
        simp only [takeEvent, takeCommand, hd] at h
        exact next_inj h ▸ .illegal w draw rest e hi hd

end Sys2Proof.Machine
end

