-- ==== Sys2Proof/Laws/Inv.lean ====
section
/-! SUPPORT. The invariant over the primitive updates: which fields it reads, what writing one channel, one tracker or
one queue must meet, and that every storage operation keeps the canonical form (20_memory.md R50, R53). -/

namespace Sys2Proof.Machine

/-! ### Indices of a legal state -/

namespace State.Inv

variable {s : State}

theorem chan_lt (h : s.Inv) {c : Nat} (hc : c < s.cfg.numCh) : c < s.ch.length := h.chLen ▸ hc

theorem tmr_lt (h : s.Inv) {c : Nat} (hc : c < s.cfg.numCh) : s.cfg.tmrOf c < s.cfg.numTmr := (Cfg.wf_chan h.cfgWf hc).1

theorem q_lt (h : s.Inv) {c : Nat} (hc : c < s.cfg.numCh) : s.cfg.qOf c < s.cfg.numQ := (Cfg.wf_chan h.cfgWf hc).2

theorem trk_lt (h : s.Inv) {c : Nat} (hc : c < s.cfg.numCh) : s.cfg.tmrOf c < s.trk.length := h.trkLen ▸ h.tmr_lt hc

theorem queue_lt (h : s.Inv) {c : Nat} (hc : c < s.cfg.numCh) : s.cfg.qOf c < s.q.length := h.qLen ▸ h.q_lt hc

/-! ### What the invariant reads -/

/-- The invariant reads the configuration and ECAP's own state alone. -/
theorem congr {t : State} (h : s.Inv) (hg : t.cfg = s.cfg) (hc : t.ch = s.ch) (ht : t.trk = s.trk) (hq : t.q = s.q) :
    t.Inv := by
  have hch : ∀ c, t.chan c = s.chan c := fun c => by simp [State.chan, hc]
  have htr : ∀ x, t.trkAt x = s.trkAt x := fun x => by simp [State.trkAt, ht]
  have hqu : ∀ k, t.queue k = s.queue k := fun k => by simp [State.queue, hq, hg]
  refine ⟨hg ▸ h.cfgWf, by rw [hc, hg, h.chLen], by rw [ht, hg, h.trkLen], by rw [hq, hg, h.qLen], fun c hl => ?_,
    fun x hl => ?_, fun k hl => ?_⟩
  · rw [hg] at hl ⊢
    exact hch c ▸ h.chanInv c hl
  · rw [hg] at hl ⊢
    exact htr x ▸ h.trkLt x hl
  · have hi := h.queueInv k (hg ▸ hl)
    constructor <;> simp only [State.slotOf, hqu, hg]
    exacts [hi.storeWf, hi.slotsOk, hi.rdLt, hi.occLe, hi.heldSlot]

/-! ### Writing one element -/

theorem setChan (h : s.Inv) {c : Nat} {x : Channel} (hx : ChannelInv s.cfg c x) : (s.setChan c x).Inv := by
  refine ⟨h.cfgWf, by simpa using h.chLen, h.trkLen, h.qLen, fun c' hc => ?_, h.trkLt, fun k hk => ?_⟩
  · by_cases he : c' = c
    · subst he
      rw [State.chan_setChan_self (h.chan_lt hc)]
      exact hx
    · rw [State.chan_setChan_of_ne he]
      exact h.chanInv c' hc
  · have hi := h.queueInv k hk
    exact ⟨hi.storeWf, hi.slotsOk, hi.rdLt, hi.occLe, hi.heldSlot⟩

theorem setTrk (h : s.Inv) {t : Nat} {v : BitVec 64} (hv : v.toNat < 2 ^ s.cfg.wTrk) : (s.setTrk t v).Inv := by
  refine ⟨h.cfgWf, h.chLen, by simpa using h.trkLen, h.qLen, h.chanInv, fun t' ht => ?_, fun k hk => ?_⟩
  · by_cases he : t' = t
    · subst he
      rw [State.trkAt_setTrk_self (h.trkLen ▸ ht)]
      exact hv
    · rw [State.trkAt_setTrk_of_ne he]
      exact h.trkLt t' ht
  · have hi := h.queueInv k hk
    exact ⟨hi.storeWf, hi.slotsOk, hi.rdLt, hi.occLe, hi.heldSlot⟩

theorem setQueue (h : s.Inv) {k : Nat} {x : Queue} (hw : x.store.wf)
    (hs : ∀ e ∈ x.store, e.1 < s.cfg.capOf k ∧ e.2.dur.toNat < 2 ^ s.cfg.wDur) (hr : x.rd < s.cfg.capOf k)
    (ho : x.occ ≤ s.cfg.capOf k) (hh : ∀ i < x.occ, (x.store.find? ((x.rd + i) % s.cfg.capOf k)).isSome) :
    (s.setQueue k x).Inv := by
  refine ⟨h.cfgWf, h.chLen, h.trkLen, by simpa using h.qLen, h.chanInv, h.trkLt, fun k' hk => ?_⟩
  by_cases he : k' = k
  · subst he
    have hq := State.queue_setQueue_self (s := s) (x := x) (h.qLen ▸ hk)
    constructor <;> simp only [State.slotOf, hq, State.setQueue_cfg]
    exacts [hw, hs, hr, ho, hh]
  · have hi := h.queueInv k' hk
    have hq := State.queue_setQueue_of_ne (s := s) (x := x) he
    constructor <;> simp only [State.slotOf, hq, State.setQueue_cfg]
    exacts [hi.storeWf, hi.slotsOk, hi.rdLt, hi.occLe, hi.heldSlot]

end State.Inv

/-! ### Values that fit their widths -/

/-- A duration is a W_DUR-bit value (40_capture_channel.md R103). -/
theorem duration_lt (s : State) (c : Nat) (raw : Arg) : (s.duration c raw).toNat < 2 ^ s.cfg.wDur := by
  simp only [State.duration, BitVec.toNat_ofNat]
  refine Nat.lt_of_le_of_lt (Nat.mod_le _ _) ?_
  have hp : (0 : Int) < (2 ^ s.cfg.wDur : Nat) := by positivity
  have := Int.emod_lt_of_pos ((raw.toNat : Int) + s.tally c * s.cfg.modOf (s.cfg.tmrOf c) - (s.chan c).last.toNat) hp
  omega

/-- The duration is the reduced integer itself: holding it in 32 bits loses nothing. -/
theorem duration_toNat {s : State} (h : s.Inv) (c : Nat) (raw : Arg) : ((s.duration c raw).toNat : Int) =
    ((raw.toNat : Int) + s.tally c * s.cfg.modOf (s.cfg.tmrOf c) - (s.chan c).last.toNat) % (2 ^ s.cfg.wDur : Nat) := by
  have hw := (Cfg.wf_widths h.cfgWf).1
  have hle : 2 ^ s.cfg.wDur ≤ 2 ^ 32 := Nat.pow_le_pow_right (by norm_num) hw.2
  simp only [State.duration, BitVec.toNat_ofNat]
  have hp : (0 : Int) < (2 ^ s.cfg.wDur : Nat) := by positivity
  have := Int.emod_lt_of_pos ((raw.toNat : Int) + s.tally c * s.cfg.modOf (s.cfg.tmrOf c) - (s.chan c).last.toNat) hp
  have := Int.emod_nonneg ((raw.toNat : Int) + s.tally c * s.cfg.modOf (s.cfg.tmrOf c) - (s.chan c).last.toNat) hp.ne'
  rw [Nat.mod_eq_of_lt (by omega), Int.toNat_of_nonneg this]

/-- A tally is a W_TRK-bit value (10_state.md R24). -/
theorem tally_lt {s : State} (h : s.Inv) {c : Nat} (hc : c < s.cfg.numCh) : s.tally c < 2 ^ s.cfg.wTrk := by
  cases hm : s.cfg.ovfMode
  · rw [tally_snapshot hm]
    have hp : (0 : Int) < (2 ^ s.cfg.wTrk : Nat) := by positivity
    have := Int.emod_lt_of_pos ((s.trkAt (s.cfg.tmrOf c)).toNat - (s.chan c).snap.toNat : Int) hp
    omega
  · rw [tally_sharedReset hm]
    exact h.trkLt _ (h.tmr_lt hc)

/-- The next overflow count: holding it in 64 bits loses nothing (41_overflow_tracker.md R136). -/
theorem trkIncr_toNat {w : Nat} (hw : w ≤ 64) (v : BitVec 64) : (trkIncr w v).toNat = (v.toNat + 1) % 2 ^ w := by
  have hle : 2 ^ w ≤ 2 ^ 64 := Nat.pow_le_pow_right (by norm_num) hw
  have := Nat.mod_lt (v.toNat + 1) (show 0 < 2 ^ w by positivity)
  simp only [trkIncr, BitVec.toNat_ofNat]
  exact Nat.mod_eq_of_lt (by omega)

/-! ### The storage stays canonical -/

/-- Every queue's storage is in its canonical form. -/
def State.StoresWf (s : State) : Prop := ∀ k, (s.queue k).store.wf

/-- The storage at reset lists nothing. -/
theorem reset_storesWf : State.reset.StoresWf := fun k => by
  simp [State.reset, Queue.reset]

/-- MemWrite keeps the canonical form. -/
theorem memWrite_storesWf {s : State} {k i : Nat} {x : Sample} (h : s.StoresWf) : (s.memWrite k i x).StoresWf := by
  intro k'
  by_cases hk : k' = k
  · subst hk
    by_cases hl : k' < s.q.length
    · rw [memWrite_queue_self hl]; exact Memory.write_wf (h k')
    · rw [State.memWrite, show ∀ y, s.setQueue k' y = s by
        simp [State.setQueue, List.set_eq_of_length_le (Nat.le_of_not_lt hl)]]
      exact h k'
  · rw [State.memWrite, State.queue_setQueue_of_ne hk]; exact h k'

/-- Writing a queue's other fields keeps the canonical form. -/
theorem setQueue_storesWf {s : State} {k : Nat} {x : Queue} (h : s.StoresWf) (hx : x.store.wf) :
    (s.setQueue k x).StoresWf := by
  intro k'
  by_cases hk : k' = k
  · subst hk
    by_cases hl : k' < s.q.length
    · rw [State.queue_setQueue_self hl]; exact hx
    · rw [show s.setQueue k' x = s by simp [State.setQueue, List.set_eq_of_length_le (Nat.le_of_not_lt hl)]]
      exact h k'
  · rw [State.queue_setQueue_of_ne hk]; exact h k'

/-- PUSH keeps the canonical form. -/
theorem pushState_storesWf {s : State} {k : Nat} {x : Sample} (h : s.StoresWf) : (pushState k x s).StoresWf := by
  unfold pushState
  split
  · exact setQueue_storesWf h (h k)
  · exact setQueue_storesWf (memWrite_storesWf h) (memWrite_storesWf h k)

end Sys2Proof.Machine
end

