-- ==== Sys2Proof/Laws/PerInstr.lean ====
section
/-! SUPPORT. The per-command family ReservedFieldsZero: the word of a command has RSV1, RSV2 and every field the command
does not use 0 (30_encoding.md R72, R73). -/

namespace Sys2Proof.Laws.ReservedFieldsZero

/-- The word carries the command's operation code, zero reserved fields, and its SEL and ARG as 30_encoding.md R72
gives them. -/
def Statement (i : Instr) : Prop :=
  opField (encode i) = i.opcode.bits ∧ rsv1Field (encode i) = 0 ∧ rsv2Field (encode i) = 0
    ∧ selField (encode i) = i.selBits ∧ argField (encode i) = i.argBits

/-- The packed fields, once for every command. -/
theorem of_pack (i : Instr) : Statement i :=
  have h := packWord_fields i.opcode.bits (BitVec.ofNat 8 i.id) i.selBits i.argBits
  ⟨h.1, h.2.1, h.2.2.2.2.1, h.2.2.2.1, h.2.2.2.2.2⟩

theorem edge (c : Nat) (raw : Arg) : Statement (.edge c raw) := of_pack _
theorem ovf (t : Nat) : Statement (.ovf t) := of_pack _
theorem openCh (c : Nat) : Statement (.openCh c) := of_pack _
theorem close (c : Nat) : Statement (.close c) := of_pack _
theorem read (c : Nat) (max : Arg) : Statement (.read c max) := of_pack _
theorem clear (c : Nat) : Statement (.clear c) := of_pack _
theorem setwm (c : Nat) (value : Arg) : Statement (.setwm c value) := of_pack _
theorem rdreg (id : Nat) (reg : Reg) : Statement (.rdreg id reg) := of_pack _
theorem chreset (c : Nat) : Statement (.chreset c) := of_pack _

end Sys2Proof.Laws.ReservedFieldsZero
end

