-- ==== Sys2Proof/Tests/Slice0.lean ====
section
/-! SUPPORT. Tests: the well-formedness checks refuse ill-formed terms, words written out from 30_encoding.md decode to
their commands, single steps give the results of 95_test_vectors.md, and every statement's hypotheses are met. -/

namespace Sys2Proof.Tests

open Sys2Proof Sys2Proof.Machine

/-! ### Well-formedness: a term for each check, refused (30_encoding.md R70; 00_scope.md R8) -/

theorem test_wf_edge_id_256 : (Instr.edge 256 0).wf = false := by decide
theorem test_wf_ovf_id_256 : (Instr.ovf 256).wf = false := by decide
theorem test_wf_open_id_256 : (Instr.openCh 256).wf = false := by decide
theorem test_wf_close_id_256 : (Instr.close 256).wf = false := by decide
theorem test_wf_read_id_256 : (Instr.read 256 0).wf = false := by decide
theorem test_wf_clear_id_256 : (Instr.clear 256).wf = false := by decide
theorem test_wf_setwm_id_256 : (Instr.setwm 256 0).wf = false := by decide
theorem test_wf_rdreg_id_256 : (Instr.rdreg 256 .chStatus).wf = false := by decide
theorem test_wf_chreset_id_256 : (Instr.chreset 256).wf = false := by decide

/-- The counts 0 and 257 are illegal, 1 and 256 legal. -/
theorem test_wf_counts : countOk 0 = false ∧ countOk 1 = true ∧ countOk 256 = true ∧ countOk 257 = false := by decide

theorem test_wf_cfg_default : Cfg.default.wf = true := by decide
theorem test_wf_cfg_no_channel : ({ Cfg.default with chan := [] } : Cfg).wf = false := by decide
theorem test_wf_cfg_no_timer : ({ Cfg.default with chan := [], mod := [] } : Cfg).wf = false := by decide
theorem test_wf_cfg_no_queue : ({ Cfg.default with chan := [], cap := [] } : Cfg).wf = false := by decide
theorem test_wf_cfg_timer_missing : ({ Cfg.default with chan := [⟨2, 0⟩] } : Cfg).wf = false := by decide
theorem test_wf_cfg_queue_missing : ({ Cfg.default with chan := [⟨0, 2⟩] } : Cfg).wf = false := by decide
theorem test_wf_cfg_mod_1 : ({ Cfg.default with mod := [1, 2] } : Cfg).wf = false := by decide
theorem test_wf_cfg_mod_max : ({ Cfg.default with mod := [2, 0x100000000] } : Cfg).wf = true := by decide
theorem test_wf_cfg_mod_above : ({ Cfg.default with mod := [2, 0x100000001] } : Cfg).wf = false := by decide
theorem test_wf_cfg_cap_0 : ({ Cfg.default with cap := [1, 0] } : Cfg).wf = false := by decide
theorem test_wf_cfg_cap_above : ({ Cfg.default with cap := [1, 0x100000000] } : Cfg).wf = false := by decide
theorem test_wf_cfg_wDur_0 : ({ Cfg.default with wDur := 0 } : Cfg).wf = false := by decide
theorem test_wf_cfg_wDur_33 : ({ Cfg.default with wDur := 33 } : Cfg).wf = false := by decide
theorem test_wf_cfg_wTrk_0 : ({ Cfg.default with wTrk := 0 } : Cfg).wf = false := by decide
theorem test_wf_cfg_wTrk_65 : ({ Cfg.default with wTrk := 65 } : Cfg).wf = false := by decide

/-! ### Decoding: words written out bit by bit from the patterns of 30_encoding.md R73 -/

/-- OP 0001, ID 1, ARG 60000 (R87). -/
theorem test_decode_edge :
    decode 0b0001_0000_00000001_00000000_00000000_00000000000000001110101001100000 = .ok (.edge 1 60000) := by rfl
/-- OP 0010, ID 3. -/
theorem test_decode_ovf :
    decode 0b0010_0000_00000011_00000000_00000000_00000000000000000000000000000000 = .ok (.ovf 3) := by rfl
/-- OP 0011, ID 1 (program P4, step 2). -/
theorem test_decode_open :
    decode 0b0011_0000_00000001_00000000_00000000_00000000000000000000000000000000 = .ok (.openCh 1) := by rfl
/-- OP 0100, ID 255. -/
theorem test_decode_close :
    decode 0b0100_0000_11111111_00000000_00000000_00000000000000000000000000000000 = .ok (.close 255) := by rfl
/-- OP 0101, ID 128, ARG 2^31 + 1: the top bits of both fields are read. -/
theorem test_decode_read :
    decode 0b0101_0000_10000000_00000000_00000000_10000000000000000000000000000001 = .ok (.read 128 0x80000001) := by rfl
/-- OP 0110, ID 2. -/
theorem test_decode_clear :
    decode 0b0110_0000_00000010_00000000_00000000_00000000000000000000000000000000 = .ok (.clear 2) := by rfl
/-- OP 0111, ID 0, ARG all ones (V55). -/
theorem test_decode_setwm :
    decode 0b0111_0000_00000000_00000000_00000000_11111111111111111111111111111111 = .ok (.setwm 0 0xFFFFFFFF) := by rfl
/-- OP 1000, ID 1, SEL 0x03 (V72). -/
theorem test_decode_rdreg :
    decode 0b1000_0000_00000001_00000011_00000000_00000000000000000000000000000000 = .ok (.rdreg 1 .chBind) := by rfl
/-- OP 1001, ID 16. -/
theorem test_decode_chreset :
    decode 0b1001_0000_00010000_00000000_00000000_00000000000000000000000000000000 = .ok (.chreset 16) := by rfl

/-- The eleven registers, by the SEL values of 10_state.md R32. -/
theorem test_decode_registers :
    [0x00, 0x01, 0x02, 0x03, 0x04, 0x10, 0x11, 0x12, 0x13, 0x20, 0x21].map Reg.ofSel
      = [some .chStatus, some .chLast, some .chOvf, some .chBind, some .chSnap, some .qOcc, some .qWm, some .qDrop,
         some .qCap, some .tmrTrk, some .tmrMod] := by decide

/-- V11, V33, V74, V80 to V84: the illegal words. -/
theorem test_decode_illegal :
    decode 0x1000010000000005 = .error .selNonzero ∧ decode 0x1000000100000005 = .error .rsv2Nonzero
    ∧ decode 0x1100000000000005 = .error .rsv1Nonzero ∧ decode 0x2000000000000001 = .error .argNonzero
    ∧ decode 0x8000050000000000 = .error .reservedSel ∧ decode 0x8000140000000000 = .error .reservedSel
    ∧ decode 0x8000FF0000000000 = .error .reservedSel ∧ decode 0x8000000000000001 = .error .argNonzero
    ∧ decode 0x0000000000000000 = .error .reservedOp ∧ decode 0xF000000000000000 = .error .reservedOp
    ∧ decode 0xA000000000000000 = .error .reservedOp ∧ decode 0x3800000000000000 = .error .rsv1Nonzero
    ∧ decode 0x6000000080000000 = .error .argNonzero ∧ decode 0x5000800000000001 = .error .selNonzero := by
  refine ⟨?_, ?_, ?_, ?_, ?_, ?_, ?_, ?_, ?_, ?_, ?_, ?_, ?_, ?_⟩ <;> rfl

/-- The rows as opcode_table.json numbers their bits: the decoder and the fetched word agree with R87. -/
theorem test_table_word :
    decodeTableWord 64 0x1000000000000064 = some (.edge 0 100) ∧ decodeTableWord 64 0x0 = none
      ∧ decodeTableWord 72 0x1000000000000064 = none := by decide

/-! ### Small states -/

/-- Configurations A4, A8, A1 and S4 of 95_test_vectors.md, by their capacity and number of channels; B-SN and B-SR. -/
def cfgA (cap : Nat) : Cfg := ⟨[⟨0, 0⟩], [0x10000], [cap], 32, 64, .snapshot⟩
def cfgS4 : Cfg := ⟨[⟨0, 0⟩, ⟨0, 0⟩], [0x10000], [4], 32, 64, .snapshot⟩
def cfgB (m : OvfMode) : Cfg := ⟨[⟨0, 0⟩, ⟨0, 1⟩], [0x10000], [8, 8], 32, 64, m⟩

/-- A state with the given channels, trackers, queues and events. -/
def mkState (g : Cfg) (ch : List Channel) (trk : List (BitVec 64)) (q : List Queue) (inputs : List Event := []) : State :=
  { cfg := g, ch := ch, trk := trk, q := q, epoch := 0, initOk := true, inputs := inputs, outputs := [] }

/-- An armed channel in IDLE; an armed channel in ACTIVE. -/
def idle : Channel := { Channel.reset with armed := true }
def active (last : Arg) (level : Bool) (snap : BitVec 64 := 0) : Channel :=
  { last := last, level := level, prior := true, snap := snap, armed := true }

/-- The last output of a step, and what is read from the state it leaves. -/
def lastOutput : Result → Option StepOutput
  | .next t => t.outputs.getLast?
  | .fault _ => none
  | .refused _ => none
def look {α : Type} (f : State → α) : Result → Option α
  | .next t => some (f t)
  | .fault _ => none
  | .refused _ => none

/-- A4 with a full queue that wraps the ring: program P3 before step 14. -/
def p3Queue : Queue :=
  { store := [(0, ⟨60, true⟩), (1, ⟨70, false⟩), (2, ⟨30, false⟩), (3, ⟨40, true⟩)], rd := 2, occ := 4, wm := 2, drop := 1 }
def p3 : State := mkState (cfgA 4) [active 280 true] [0] [p3Queue]

/-- A4, ACTIVE, one sample held, watermark 2: program P1 before step 4. -/
def p1 : State :=
  mkState (cfgA 4) [active 900 true] [0] [{ store := [(0, ⟨800, false⟩)], rd := 0, occ := 1, wm := 2, drop := 0 }]

/-! ### Single steps (95_test_vectors.md) -/

/-- V1: last 60000, one overflow, raw 1000 gives the sample 6536, LOW. -/
theorem test_edge_wrap :
    look (fun t => (t.content 0, t.chan 0)) (exec (.edge 0 1000) (mkState (cfgA 8) [active 60000 false] [1] [Queue.reset (cfgA 8) 0]))
      = some ([⟨6536, false⟩], active 1000 true 1) := by decide
/-- V12: CAP 1, the queue full with {10, LOW}; EDGE 30 is DROPPED, counts in Q_DROP, and toggles the level back to LOW. -/
theorem test_edge_dropped :
    (fun r => (lastOutput r, look (fun t => ((t.queue 0).drop, (t.chan 0).status)) r))
      (exec (.edge 0 30) (mkState (cfgA 1) [active 10 true] [0] [⟨[(0, ⟨10, false⟩)], 0, 1, 0, 0⟩]))
      = (some ⟨.dropped, [], none⟩, some (1, 0xB)) := by decide
/-- V31: W_TRK 4, OVF at 15 wraps to 0 and the tally is 1. -/
theorem test_ovf_wrap :
    look (fun t => (t.trkAt 0, t.tally 0))
      (exec (.ovf 0) (mkState { cfgA 8 with wTrk := 4 } [active 100 false 15] [15] [Queue.reset (cfgA 8) 0]))
      = some (0, 1) := by decide
/-- V32: OVF tmr1 with one timer is ERR_ID. -/
theorem test_ovf_err_id : lastOutput (exec (.ovf 1) (State.resetWith (cfgA 8))) = some ⟨.errId, [], none⟩ := by decide
/-- V62: a second OPEN undoes SETWM 3 and empties the queue; CH_STATUS reads 1. -/
theorem test_open_again :
    look (fun t => ((t.queue 0).wm, (t.queue 0).occ, (t.chan 0).status))
      (exec (.openCh 0) (mkState (cfgA 4) [active 30 false] [0] [⟨[(0, ⟨10, false⟩), (1, ⟨10, true⟩)], 0, 2, 3, 0⟩]))
      = some (2, 0, 1) := by decide
/-- V61: OPEN with init_ok 0 is ERR_INIT and changes nothing. -/
theorem test_open_err_init :
    exec (.openCh 0) { State.resetWith (cfgA 4) with initOk := false }
      = .next { State.resetWith (cfgA 4) with initOk := false, outputs := [⟨.errInit, [], none⟩] } := by rfl
/-- V66: after OPEN, two edges and CLOSE, CH_STATUS reads 6 and the sample {7, LOW} is still held. -/
theorem test_close_keeps :
    look (fun t => ((t.chan 0).status, t.content 0))
      (exec (.close 0) (mkState (cfgA 4) [active 7 true] [0] [⟨[(0, ⟨7, false⟩)], 0, 1, 2, 0⟩]))
      = some (0x6, [⟨7, false⟩]) := by decide
/-- P3, step 14 (V43): READ across the ring wrap, oldest first. -/
theorem test_read_ring_wrap :
    lastOutput (exec (.read 0 8) p3) = some ⟨.ok, [0x1E, 0x100000028, 0x10000003C, 0x46], none⟩ := by decide
/-- V41: READ of 0 returns nothing and leaves the occupancy at 1. -/
theorem test_read_zero :
    (fun r => (lastOutput r, look (fun t => (t.queue 0).occ) r)) (exec (.read 0 0) p1)
      = (some ⟨.ok, [], none⟩, some 1) := by decide
/-- P3, step 16 (V49): CLEAR empties the queue and leaves Q_DROP at 1. -/
theorem test_clear_keeps_drop :
    look (fun t => (t.content 0, (t.queue 0).drop)) (exec (.clear 0) p3) = some ([], 1) := by decide
/-- V52: a watermark above the capacity is not clamped. -/
theorem test_setwm_unclamped : look (fun t => (t.queue 0).wm) (exec (.setwm 0 5) p1) = some 5 := by decide
/-- V53: SETWM to the present occupancy emits no NOTIFY. -/
theorem test_setwm_silent : lastOutput (exec (.setwm 0 1) p1) = some ⟨.ok, [], none⟩ := by decide
/-- V72: CH_BIND of channel 1 in configuration R is queue 1, timer 1. -/
theorem test_rdreg_bind : lastOutput (exec (.rdreg 1 .chBind) State.reset) = some ⟨.ok, [0x101], none⟩ := by decide
/-- V70: after OPEN and one edge CH_STATUS is 0xB. -/
theorem test_rdreg_status :
    lastOutput (exec (.rdreg 0 .chStatus) (mkState (cfgA 4) [active 0 false] [0] [Queue.reset (cfgA 4) 0]))
      = some ⟨.ok, [0xB], none⟩ := by decide
/-- V20: CHRESET gives CH_STATUS 1 and keeps the queue. -/
theorem test_chreset_keeps_queue :
    look (fun t => ((t.chan 0).status, t.content 0))
      (exec (.chreset 0) (mkState (cfgA 8) [active 900 true] [0] [⟨[(0, ⟨800, false⟩)], 0, 1, 4, 0⟩]))
      = some (1, [⟨800, false⟩]) := by decide
/-- V22 and V21: CHRESET of an unarmed channel takes the snapshot in one mode and clears the tracker in the other. -/
theorem test_chreset_tally :
    look (fun t => (t.trkAt 0, (t.chan 0).snap)) (exec (.chreset 0) { State.resetWith (cfgA 8) with trk := [2] }) = some (2, 2)
    ∧ look (fun t => (t.trkAt 0, (t.chan 0).snap))
        (exec (.chreset 0) { State.resetWith { cfgA 8 with ovfMode := .sharedReset } with trk := [2] }) = some (0, 0) := by
  decide
/-- V90: Reset undoes everything, the watermark too. -/
theorem test_reset_event :
    look (fun t => (t.ch, t.trk, t.q, t.outputs)) (step { p3 with inputs := [.reset] })
      = some ([Channel.reset], [0], [⟨[], 0, 0, 2, 0⟩], [⟨.ok, [], none⟩]) := by decide
/-- The delivered word is the next event, and the very next step runs it (OPEN ch0). -/
theorem test_withFetchWord :
    look (fun t => (t.chan 0).armed) (step (State.reset.withFetchWord 64 0x3000000000000000)) = some true := by decide

/-! ### The invariant of a concrete state, computed -/

/-- The invariant's checks, one by one, on a concrete state. -/
def checkInv (s : State) : Bool :=
  s.cfg.wf && decide (s.ch.length = s.cfg.numCh ∧ s.trk.length = s.cfg.numTmr ∧ s.q.length = s.cfg.numQ)
  && decide (∀ c < s.cfg.numCh, (s.chan c).last.toNat < s.cfg.modOf (s.cfg.tmrOf c)
      ∧ ((s.chan c).prior = false → (s.chan c).level = false ∧ (s.chan c).last = 0)
      ∧ (s.chan c).snap.toNat < 2 ^ s.cfg.wTrk ∧ (s.cfg.ovfMode = .sharedReset → (s.chan c).snap = 0))
  && decide (∀ t < s.cfg.numTmr, (s.trkAt t).toNat < 2 ^ s.cfg.wTrk)
  && decide (∀ k < s.cfg.numQ, (s.queue k).store.wf
      ∧ (∀ e ∈ (s.queue k).store, e.1 < s.cfg.capOf k ∧ e.2.dur.toNat < 2 ^ s.cfg.wDur)
      ∧ (s.queue k).rd < s.cfg.capOf k ∧ (s.queue k).occ ≤ s.cfg.capOf k
      ∧ ∀ i < (s.queue k).occ, ((s.queue k).store.find? (s.slotOf k i)).isSome = true)

/-- A state that passes the checks meets the invariant. -/
theorem inv_of_check {s : State} (h : checkInv s = true) : s.Inv := by
  simp only [checkInv, Bool.and_eq_true, decide_eq_true_eq] at h
  obtain ⟨⟨⟨⟨hw, hl⟩, hc⟩, ht⟩, hq⟩ := h
  exact ⟨hw, hl.1, hl.2.1, hl.2.2, fun c h => ⟨(hc c h).1, (hc c h).2.1, (hc c h).2.2.1, (hc c h).2.2.2⟩, ht,
    fun k h => ⟨(hq k h).1, (hq k h).2.1, (hq k h).2.2.1, (hq k h).2.2.2.1, (hq k h).2.2.2.2⟩⟩

theorem inv_p1 : p1.Inv := inv_of_check (by decide)
theorem inv_p3 : p3.Inv := inv_of_check (by decide)

/-! ### Witnesses: states and operands that meet every statement's hypotheses

One theorem per statement with hypotheses, named after it; a statement of several clauses has a witness for each clause,
at the boundary of its range. -/

/-- More small states: an armed IDLE channel with two overflows counted, in each mode; two channels of one queue (S4);
two channels of one timer in SHARED_RESET mode (B-SR). -/
def idleState (m : OvfMode) : State := mkState { cfgA 4 with ovfMode := m } [idle] [2] [Queue.reset (cfgA 4) 0]
def s4 : State := mkState cfgS4 [active 50 true, active 5 false] [0] [⟨[(0, ⟨50, false⟩)], 0, 1, 2, 0⟩]
def bsr : State :=
  mkState (cfgB .sharedReset) [active 100 false, active 200 false] [1] [⟨[], 0, 0, 4, 0⟩, ⟨[], 0, 0, 4, 0⟩]

theorem inv_idle (m : OvfMode) : (idleState m).Inv := by cases m <;> exact inv_of_check (by decide)
theorem inv_s4 : s4.Inv := inv_of_check (by decide)
theorem inv_bsr : bsr.Inv := inv_of_check (by decide)

/-! #### Encoding -/

theorem witness_DecodeEncodeRoundTrip : (Instr.setwm 255 0xFFFFFFFF).wf = true := by decide
theorem witness_EncodeDecodeRoundTrip : decode 0x80FF210000000000 = .ok (.rdreg 255 .tmrMod) := by rfl
/-- Both sides of the equivalence: a word that meets a row, and one that meets RDREG's row with a reserved SEL. -/
theorem witness_DecodesExactlyOnAnOpcodeRow :
    (opcodeRows.any fun r => r.op == .read && r.admits 0x50FF0000FFFFFFFF) = true
      ∧ (opcodeRows.any fun r => r.op == .rdreg && r.admits 0x8000220000000000) = true
      ∧ decode 0x8000220000000000 = .error .reservedSel := by decide
/-- R85's first and last IDs. -/
theorem witness_EncodingIsTheAssemblerForm : (0 : Nat) < 256 ∧ (255 : Nat) < 256 := by decide

/-! #### Steps and events -/

theorem witness_StepRunsTheDecodedCommand :
    ∃ s : State, s.inputs = [.cmd 0x3000000000000000 true] ∧ decode 0x3000000000000000 = .ok (.openCh 0) :=
  ⟨{ p1 with inputs := [.cmd 0x3000000000000000 true] }, rfl, rfl⟩
/-- One illegal word for each reason of R82, at the reserved values next to the legal ones. -/
theorem witness_IllegalWordAnswersErrIllegal_each :
    IllegalWord 0x0000000000000000 ∧ IllegalWord 0xA000000000000000 ∧ IllegalWord 0x1100000000000005
      ∧ IllegalWord 0x1000000100000005 ∧ IllegalWord 0x1000010000000005 ∧ IllegalWord 0x2000000000000001
      ∧ IllegalWord 0x8000050000000000 ∧ IllegalWord 0x8000220000000000 := by
  refine ⟨?_, ?_, ?_, ?_, ?_, ?_, ?_, ?_⟩ <;> unfold IllegalWord <;> decide
/-- The hypotheses of both clauses: an illegal word to be taken, and a word that is not illegal. -/
theorem witness_IllegalWordAnswersErrIllegal :
    (∃ s : State, s.inputs = [.cmd 0 true] ∧ IllegalWord 0) ∧ ¬ IllegalWord 0x8000210000000000 := by
  refine ⟨⟨{ p1 with inputs := [.cmd 0 true] }, rfl, ?_⟩, ?_⟩ <;> unfold IllegalWord <;> decide
theorem witness_ResetEventPutsResetValues :
    ∃ s : State, s.cfg.wf = true ∧ s.inputs = [.reset] ∧ 0 < s.cfg.numCh ∧ 0 < s.cfg.numTmr ∧ 0 < s.cfg.numQ :=
  ⟨{ p3 with inputs := [.reset] }, by decide, rfl, by decide⟩
theorem witness_StateAfterReset :
    ∃ g : Cfg, g.wf = true ∧ 1 < g.numCh ∧ 1 < g.numTmr ∧ 1 < g.numQ := ⟨Cfg.default, by decide⟩
theorem witness_EveryEventHasExactlyOneStep : ∃ s : State, s.inputs = [.reset, .cmd 0 false] :=
  ⟨{ p1 with inputs := [.reset, .cmd 0 false] }, rfl⟩
theorem witness_NoEventNoChange : p1.inputs = [] := by rfl
theorem witness_StatusFollowsThePriority_illegal :
    ∃ s : State, s.inputs = [.cmd 0 true] ∧ decode 0 = .error .reservedOp :=
  ⟨{ p1 with inputs := [.cmd 0 true] }, rfl, rfl⟩
/-- The first ID out of range and the last in range, for a channel command and a timer command. -/
theorem witness_StatusFollowsThePriority_id :
    IdOutOfRange p1 (.edge 1 0) ∧ ¬ IdOutOfRange p1 (.edge 0 0) ∧ IdOutOfRange p1 (.rdreg 1 .tmrMod)
      ∧ ¬ IdOutOfRange p1 (.rdreg 0 .tmrMod) := by
  simp only [IdOutOfRange, RdregIdOutOfRange]; decide
/-- Items 3 to 5 of R201, each at its boundary: unarmed; raw = MOD and raw = MOD - 1; full and not full; both draws. -/
theorem witness_StatusFollowsThePriority_each :
    StatusOfInRange (State.resetWith (cfgA 4)) (.edge 0 0x10000) .ignored
      ∧ StatusOfInRange p3 (.edge 0 0x10000) .errRange ∧ StatusOfInRange p3 (.edge 0 0xFFFF) .dropped
      ∧ StatusOfInRange p1 (.edge 0 0xFFFF) .ok ∧ StatusOfInRange (idleState .snapshot) (.edge 0 0xFFFF) .ok
      ∧ StatusOfInRange { p1 with initOk := false } (.openCh 0) .errInit ∧ StatusOfInRange p1 (.openCh 0) .ok := by
  refine ⟨?_, ?_, ?_, ?_, ?_, ?_, ?_⟩ <;> simp only [StatusOfInRange] <;> decide

/-! #### CaptureChannel -/

theorem witness_EdgeInIdleStartsTheChannel (m : OvfMode) : (idleState m).Inv ∧ 0 < (idleState m).cfg.numCh
    ∧ ((idleState m).chan 0).armed = true ∧ (0xFFFF : Arg).toNat < (idleState m).cfg.modOf ((idleState m).cfg.tmrOf 0)
    ∧ ((idleState m).chan 0).prior = false :=
  ⟨inv_idle m, by cases m <;> decide⟩
/-- On the crossing PUSH of P1 (watermark 2, one sample held), on a PUSH that fills the last slot of the ring without
crossing (four slots, three held, watermark 2), and in SHARED_RESET mode. -/
theorem witness_EdgeInActiveStoresTheSample : ∀ s ∈ [p1, { p3 with q := [{ p3Queue with occ := 3 }] }, bsr],
    s.Inv ∧ 0 < s.cfg.numCh ∧ (s.chan 0).armed = true ∧ (0xFFFF : Arg).toNat < s.cfg.modOf (s.cfg.tmrOf 0)
      ∧ (s.chan 0).prior = true ∧ 0 = s.cfg.qOf 0 ∧ (s.queue 0).occ < s.cfg.capOf 0 := by
  intro s hs
  simp only [List.mem_cons, List.not_mem_nil, or_false] at hs
  rcases hs with rfl | rfl | rfl <;> exact ⟨inv_of_check (by decide), by decide⟩
theorem witness_EdgeOnAFullQueueDropsTheSample : p3.Inv ∧ 0 < p3.cfg.numCh ∧ (p3.chan 0).armed = true
    ∧ (0xFFFF : Arg).toNat < p3.cfg.modOf (p3.cfg.tmrOf 0) ∧ (p3.chan 0).prior = true ∧ 0 = p3.cfg.qOf 0
    ∧ (p3.queue 0).occ = p3.cfg.capOf 0 := ⟨inv_p3, by decide⟩
/-- The hypotheses of R107's four clauses: V3 (nothing elapsed), V4 (one period), V5 (raw below last) and V6 (the count
reaches 2^32). -/
theorem witness_EdgeCornerDurations :
    ∀ e ∈ [((active 500 false, 0), 500), ((active 500 false, 1), 500), ((active 1000 false, 0), 500),
        ((active 5 false, 65536), (5 : Arg))],
      let s := mkState (cfgA 8) [e.1.1] [e.1.2] [Queue.reset (cfgA 8) 0]
      checkInv s = true ∧ 0 < s.cfg.numCh ∧ (s.chan 0).armed = true ∧ e.2.toNat < s.cfg.modOf (s.cfg.tmrOf 0)
        ∧ (s.chan 0).prior = true ∧ 0 = s.cfg.qOf 0 ∧ (s.queue 0).occ < s.cfg.capOf 0
        ∧ ((s.tally 0 = 0 ∧ e.2 = (s.chan 0).last) ∨ (s.tally 0 = 1 ∧ e.2 = (s.chan 0).last)
          ∨ (s.tally 0 = 0 ∧ e.2.toNat < (s.chan 0).last.toNat ∧ (s.chan 0).last.toNat - e.2.toNat ≤ 2 ^ s.cfg.wDur)
          ∨ (s.tally 0 * s.cfg.modOf (s.cfg.tmrOf 0) = 2 ^ s.cfg.wDur ∧ e.2 = (s.chan 0).last)) := by
  decide
/-- V5: the duration itself, 0xFFFF_FE0C. -/
theorem test_edge_negative : look (fun t => t.content 0)
    (exec (.edge 0 500) (mkState (cfgA 8) [active 1000 false] [0] [Queue.reset (cfgA 8) 0]))
      = some [⟨0xFFFFFE0C, false⟩] := by decide
/-- The IDLE branch, the ACTIVE branch from HIGH and the ACTIVE branch from LOW. -/
theorem witness_ExpectIsOppositeAfterEdge :
    ∀ s ∈ [idleState .snapshot, p1, s4], checkInv s = true ∧ s.cfg.numCh ≠ 0
      ∧ (∃ c < s.cfg.numCh, (s.chan c).armed = true ∧ (0 : Arg).toNat < s.cfg.modOf (s.cfg.tmrOf c)) := by
  decide
theorem witness_ExpectIsOppositeAfterEdge_low : (s4.chan 1).prior = true ∧ (s4.chan 1).level = false := by decide
theorem witness_ResetTallyZeroesTheTally (m : OvfMode) :
    (idleState m).Inv ∧ 0 < (idleState m).cfg.numCh ∧ (idleState m).tally 0 = 2 := ⟨inv_idle m, by cases m <;> decide⟩
theorem witness_ChresetReturnsToIdle (m : OvfMode) :
    (idleState m).Inv ∧ (idleState m).cfg.numCh ≤ 1 ∧ 0 < (idleState m).cfg.numCh := ⟨inv_idle m, by cases m <;> decide⟩
/-- Two later edges: one after no overflow, one after 2^4 - 1 of them, the last legal number for W_TRK 4. -/
theorem witness_EdgeRunDecodesDurationsAndLevels :
    let s := mkState { cfgA 4 with wTrk := 4 } [idle] [15] [Queue.reset (cfgA 4) 0]
    let l : List (Nat × Arg) := [(0, 0xFFFF), (15, 0)]
    s.Inv ∧ 0 < s.cfg.numCh ∧ (s.chan 0).armed = true ∧ (s.chan 0).prior = false ∧ 0 = s.cfg.qOf 0
      ∧ (0xFFFF : Arg).toNat < s.cfg.modOf (s.cfg.tmrOf 0)
      ∧ (∀ e ∈ l, e.1 < 2 ^ s.cfg.wTrk ∧ e.2.toNat < s.cfg.modOf (s.cfg.tmrOf 0))
      ∧ (s.queue 0).occ + l.length ≤ s.cfg.capOf 0 :=
  ⟨inv_of_check (by decide), by decide⟩

/-! #### OverflowTracker -/

/-- The first timer out of range and the last in range; the wrap at W_TRK 4; a channel on the timer. -/
theorem witness_OvfCountsOneOverflow :
    let s := mkState { cfgA 8 with wTrk := 4 } [active 100 false 15] [15] [Queue.reset (cfgA 8) 0]
    s.Inv ∧ s.cfg.numTmr ≤ 1 ∧ 0 < s.cfg.numTmr ∧ s.cfg.ovfMode = .snapshot ∧ 0 < s.cfg.numCh ∧ s.cfg.tmrOf 0 = 0 :=
  ⟨inv_of_check (by decide), by decide⟩
/-- Both conclusions are reached: OVF changes the tracker, and so does Reset. -/
theorem witness_SnapshotTrackerWrittenOnlyByOvfAndReset :
    ∀ e ∈ [Event.cmd 0x2000000000000000 true, .reset],
      let s := { idleState .snapshot with inputs := [e] }
      s.cfg.ovfMode = .snapshot ∧ look (fun t => decide (t.trkAt 0 ≠ s.trkAt 0)) (step s) = some true := by decide
/-- An EDGE of the other channel on the same timer. -/
theorem witness_SnapshotTallyIgnoresOtherCommands :
    ∃ t, (mkState (cfgB .snapshot) bsr.ch bsr.trk bsr.q).cfg.ovfMode = .snapshot
      ∧ exec (.edge 1 300) (mkState (cfgB .snapshot) bsr.ch bsr.trk bsr.q) = .next t
      ∧ (∀ raw, Instr.edge 1 300 ≠ .edge 0 raw) ∧ Instr.edge 1 300 ≠ .openCh 0 ∧ Instr.edge 1 300 ≠ .chreset 0
      ∧ Instr.edge 1 300 ≠ .ovf (cfgB .snapshot |>.tmrOf 0) :=
  ⟨_, rfl, rfl, by simp, by decide, by decide, by decide⟩
/-- P4 in SHARED_RESET mode, step 6: ch1's edge takes the count that ch0's edge needs. EDGE, OPEN and CHRESET complete. -/
theorem witness_SharedResetClearsEveryTallyOnTheTimer : bsr.Inv ∧ bsr.cfg.ovfMode = .sharedReset ∧ 1 < bsr.cfg.numCh
    ∧ bsr.cfg.tmrOf 0 = bsr.cfg.tmrOf 1 ∧ bsr.tally 0 = 1
    ∧ ∀ i ∈ [Instr.edge 1 300, .openCh 1, .chreset 1],
        look (fun t => (t.tally 0, t.outputs)) (exec i bsr) = some (0, bsr.outputs ++ [⟨.ok, [], none⟩]) :=
  ⟨inv_bsr, by decide⟩
/-- A DROPPED edge on a shared timer also completes. -/
theorem witness_SharedResetClearsEveryTallyOnTheTimer_dropped :
    look (fun t => (t.tally 0, t.outputs))
      (exec (.edge 0 20) (mkState { cfgA 1 with ovfMode := .sharedReset } [active 10 true] [3] [⟨[(0, ⟨10, false⟩)], 0, 1, 0, 0⟩]))
      = some (0, [⟨.dropped, [], none⟩]) := by decide
/-- Two machines of configuration A4, one overflow after an edge, with a READ still to come. -/
theorem witness_ModesAgreeOnOneChannelTimers :
    let s := mkState (cfgA 4) [active 100 false 2] [3] [Queue.reset (cfgA 4) 0] [.cmd 0x5000000000000008 true]
    let u := mkState { cfgA 4 with ovfMode := .sharedReset } [active 100 false] [1] [Queue.reset (cfgA 4) 0]
      [.cmd 0x5000000000000008 true]
    s.Inv ∧ u.Inv ∧ ModeEq s u ∧ OneChannelPerTimer s.cfg ∧ (∀ e ∈ s.inputs, ¬ e.readsTracker)
      ∧ s.cfg.wf = true ∧ s.cfg.ovfMode = .snapshot := by
  refine ⟨inv_of_check (by decide), inv_of_check (by decide),
    ⟨rfl, rfl, by decide, by decide, rfl, rfl, rfl, rfl, rfl⟩, by unfold OneChannelPerTimer; decide, ?_, by decide, rfl⟩
  intro e he
  obtain rfl := List.mem_singleton.1 he
  have hd : decode 0x5000000000000008 = .ok (.read 0 8) := by rfl
  rintro ⟨id, h | h⟩ <;> rw [hd] at h <;> cases h

/-! #### SampleQueue -/

/-- READ of nothing, of fewer and of more than are held, and the first channel out of range. -/
theorem witness_ReadDrainsOldestFirst : p3.Inv ∧ 0 = p3.cfg.qOf 0 ∧ 0 < p3.cfg.numCh ∧ p3.cfg.numCh ≤ 1
    ∧ min (0 : Arg).toNat (p3.queue 0).occ = 0 ∧ min (3 : Arg).toNat (p3.queue 0).occ = 3
    ∧ min (0xFFFFFFFF : Arg).toNat (p3.queue 0).occ = 4 := ⟨inv_p3, by decide⟩
theorem witness_DrainEmptiesTheQueue : (255 : Nat) < 256 ∧ p3.Inv ∧ 0 < p3.cfg.numCh := ⟨by decide, inv_p3, by decide⟩
theorem witness_ClearEmptiesTheQueue : p3.Inv ∧ 0 = p3.cfg.qOf 0 ∧ p3.cfg.numCh ≤ 1 ∧ 0 < p3.cfg.numCh :=
  ⟨inv_p3, by decide⟩
theorem witness_ClearThenEdgeHoldsOneSample : p3.Inv ∧ 0 < p3.cfg.numCh ∧ (p3.chan 0).armed = true
    ∧ (0xFFFF : Arg).toNat < p3.cfg.modOf (p3.cfg.tmrOf 0) ∧ (p3.chan 0).prior = true ∧ 0 = p3.cfg.qOf 0
    ∧ (p3.queue 0).occ = p3.cfg.capOf 0 := ⟨inv_p3, by decide⟩
theorem witness_SetwmStoresAnyValue : p3.Inv ∧ 0 = p3.cfg.qOf 0 ∧ p3.cfg.numCh ≤ 1 ∧ 0 < p3.cfg.numCh :=
  ⟨inv_p3, by decide⟩
/-- P1, step 4: the edge that crosses, and its NOTIFY(0); every condition of the right-hand side. -/
theorem witness_NotifyExactlyOnTheCrossing :
    p1.Inv ∧ look (fun t => t.outputs) (exec (.edge 0 1700) p1) = some (p1.outputs ++ [⟨.ok, [], some 0⟩])
      ∧ 0 < p1.cfg.numCh ∧ (p1.chan 0).armed = true ∧ (1700 : Arg).toNat < p1.cfg.modOf (p1.cfg.tmrOf 0)
      ∧ (p1.chan 0).prior = true ∧ p1.cfg.qOf 0 = 0 ∧ (p1.queue 0).occ < p1.cfg.capOf 0
      ∧ (p1.queue 0).wm.toNat = (p1.queue 0).occ + 1 := ⟨inv_p1, by decide⟩
/-- Both shapes: a READ takes the two oldest, an EDGE adds one at the tail. -/
theorem witness_FifoOrderIsKept : p1.Inv ∧ 0 < p1.cfg.numQ
    ∧ look (fun t => t.content 0) (exec (.edge 0 1700) p1) = some [⟨800, false⟩, ⟨800, true⟩]
    ∧ look (fun t => t.content 0) (exec (.read 0 2) p3) = some [⟨60, true⟩, ⟨70, false⟩] := ⟨inv_p1, by decide⟩
theorem witness_QueueCommandsAgreeThroughAnyChannel :
    0 < s4.cfg.numCh ∧ 1 < s4.cfg.numCh ∧ s4.cfg.qOf 0 = s4.cfg.qOf 1 := by decide
/-- W_DUR 16 and its largest duration. -/
theorem witness_SampleWordLayout : (16 : Nat) ≤ 32 ∧ (Sample.mk 0xFFFF true).dur.toNat < 2 ^ 16 := by decide
/-- P3 and a state that holds the same four samples from slot 0 on, with another read index. -/
theorem witness_HiddenReadIndexIsUnobservable :
    let u := { p3 with q := [{ p3Queue with
      store := [(0, ⟨30, false⟩), (1, ⟨40, true⟩), (2, ⟨60, true⟩), (3, ⟨70, false⟩)], rd := 0 }] }
    p3.Inv ∧ u.Inv ∧ p3.ObsEq u ∧ (p3.queue 0).rd ≠ (u.queue 0).rd := by
  refine ⟨inv_p3, inv_of_check (by decide), ⟨rfl, rfl, rfl, rfl, rfl, rfl, fun k hk => ?_⟩, by decide⟩
  obtain rfl : k = 0 := by
    have : p3.cfg.numQ = 1 := by rfl
    omega
  constructor <;> decide

/-! #### Control -/

/-- The first channel out of range, and both draws; in both modes. -/
theorem witness_OpenResetsAndArms (m : OvfMode) :
    (idleState m).Inv ∧ 0 = (idleState m).cfg.qOf 0 ∧ (idleState m).cfg.numCh ≤ 1 ∧ 0 < (idleState m).cfg.numCh
      ∧ (idleState m).initOk = true ∧ ({ idleState m with initOk := false } : State).initOk = false :=
  ⟨inv_idle m, by cases m <;> decide⟩
theorem witness_OpenResetsAndArms_errInit : ({ p3 with initOk := false } : State).Inv := inv_of_check (by decide)
theorem witness_CloseDisarms : p3.Inv ∧ p3.cfg.numCh ≤ 1 ∧ 0 < p3.cfg.numCh := ⟨inv_p3, by decide⟩
/-- A channel and a timer register, out of range and in range: two channels, one timer. -/
theorem witness_RdregAnswersTheRegister : s4.Inv
    ∧ RdregIdOutOfRange s4 2 .chBind ∧ ¬ RdregIdOutOfRange s4 1 .chBind
    ∧ RdregIdOutOfRange s4 1 .tmrTrk ∧ ¬ RdregIdOutOfRange s4 0 .tmrTrk :=
  ⟨inv_s4, by unfold RdregIdOutOfRange; decide⟩
/-- All three conclusions are reached: OPEN with draw 1, CLOSE, Reset. -/
theorem witness_ArmedChangesOnlyByOpenCloseReset :
    look (fun t => (t.chan 0).armed) (step { State.resetWith (cfgA 4) with inputs := [.cmd 0x3000000000000000 true] })
        = some (!((State.resetWith (cfgA 4)).chan 0).armed)
      ∧ look (fun t => (t.chan 0).armed) (step { p1 with inputs := [.cmd 0x4000000000000000 true] })
        = some (!(p1.chan 0).armed)
      ∧ look (fun t => (t.chan 0).armed) (step { p1 with inputs := [.reset] }) = some (!(p1.chan 0).armed) := by decide
theorem witness_DrawIsReadByOpenAlone :
    ∃ t, (∀ c, Instr.edge 0 1700 ≠ .openCh c) ∧ exec (.edge 0 1700) p1 = .next t := ⟨_, by simp, rfl⟩

/-! #### The invariant -/

theorem witness_InvariantHoldsAfterReset : Cfg.default.wf = true ∧ (cfgB .sharedReset).wf = true := by decide
/-- A step that stores a sample, from a state that meets the invariant. -/
theorem witness_EveryStepKeepsTheInvariant :
    ∃ s t : State, s.Inv ∧ step s = .next t ∧ t.content 0 = [⟨800, false⟩, ⟨800, true⟩] :=
  ⟨{ p1 with inputs := [.cmd 0x10000000000006A4 true] }, _, inv_of_check (by decide), rfl, by decide⟩
/-- One step of OPEN from the reset state of A4. -/
theorem witness_ReachableStatesMeetChannelInvariants : ∃ t : State, (cfgA 4).wf = true ∧ 0 < (cfgA 4).numCh
    ∧ Sys2Proof.core.run 1 ({ State.resetWith (cfgA 4) with inputs := [.cmd 0x3000000000000000 true] } : State) = .next t
    ∧ (t.chan 0).armed = true :=
  ⟨_, by decide, by decide, rfl, by decide⟩

end Sys2Proof.Tests
end

/-! The statements about the whole machine's state: what the invariant, the armed bit and an observer of the outputs see
of every step (10_state.md R22 to R35). -/

namespace Sys2Proof.Machine

/-! ### Runs -/

/-- Every step answers a next state (60_exceptions.md R202). -/
theorem step_total (s : State) : ∃ t, step s = .next t := by
  cases hi : s.inputs with
  | nil => exact ⟨_, step_of_no_inputs hi⟩
  | cons e rest =>
    rw [step_of_inputs hi]
    cases e with
    | reset => exact ⟨_, rfl⟩
    | cmd w draw =>
      simp only [takeEvent, takeCommand]
      split
      next i _ =>
        obtain ⟨u, o, he, -⟩ := exec_emits i { s with inputs := rest, initOk := draw }
        exact ⟨_, he⟩
      next => exact ⟨_, rfl⟩

/-- What every step keeps, every run keeps. -/
theorem run_induction {P : State → Prop} (hstep : ∀ s t, P s → step s = .next t → P t) {n : Nat} {s t : State}
    (hs : P s) (h : Sys2Proof.core.run n s = .next t) : P t := by
  induction n generalizing s with
  | zero => exact next_inj h ▸ hs
  | succ n ih =>
    obtain ⟨s', hs'⟩ := step_total s
    exact ih (hstep s s' hs hs') (run_succ n hs' ▸ h)

/-! ### The reset state -/

theorem channelInv_reset {g : Cfg} (hg : g.wf = true) {c : Nat} (hc : c < g.numCh) : ChannelInv g c Channel.reset where
  lastLt := by
    have := (Cfg.wf_mod hg (Cfg.wf_chan hg hc).1).1
    show 0 < _
    omega
  idleZero _ := ⟨rfl, rfl⟩
  snapLt := Nat.two_pow_pos _
  sharedSnap _ := rfl

theorem resetWith_inv {g : Cfg} (hg : g.wf = true) : (State.resetWith g).Inv where
  cfgWf := hg
  chLen := List.length_replicate
  trkLen := List.length_replicate
  qLen := by simp [State.resetWith]
  chanInv c hc := by simpa using channelInv_reset hg hc
  trkLt t _ := by simp
  queueInv k hk := by
    have hcap : 0 < g.capOf k := (Cfg.wf_cap hg hk).1
    constructor <;> simp [Queue.reset, hcap]

/-- The Reset event restores the reset state's elements under the same configuration (70_reset_and_hazards.md R230). -/
theorem State.Inv.resetElements {s : State} (h : s.Inv) : (resetElements s).Inv :=
  (resetWith_inv h.cfgWf).congr rfl rfl rfl rfl

/-- Settles O38: every element of the reset state is within its range, and nothing is held. -/
theorem invariantHoldsAfterReset : Obligations.InvariantHoldsAfterReset :=
  ⟨fun _ _ hg => (resetWith_inv hg).congr rfl rfl rfl rfl, resetWith_inv (by decide)⟩

/-! ### The channel records a command writes -/

section
variable {g : Cfg} {c : Nat} {x : Channel}

theorem ChannelInv.started (h : ChannelInv g c x) {raw : Arg} (hr : raw.toNat < g.modOf (g.tmrOf c)) :
    ChannelInv g c (x.started raw) :=
  ⟨hr, fun hp => absurd hp (by simp [Channel.started]), h.snapLt, h.sharedSnap⟩

theorem ChannelInv.toggled (h : ChannelInv g c x) {raw : Arg} (hr : raw.toNat < g.modOf (g.tmrOf c))
    (hp : x.prior = true) : ChannelInv g c (x.toggled raw) :=
  ⟨hr, fun hp' => absurd hp' (by simp [Channel.toggled, hp]), h.snapLt, h.sharedSnap⟩

theorem ChannelInv.idled (h : ChannelInv g c x) : ChannelInv g c x.idled :=
  ⟨Nat.zero_lt_of_lt h.lastLt, fun _ => ⟨rfl, rfl⟩, h.snapLt, h.sharedSnap⟩

theorem ChannelInv.withArmed (h : ChannelInv g c x) (b : Bool) : ChannelInv g c { x with armed := b } :=
  ⟨h.lastLt, h.idleZero, h.snapLt, h.sharedSnap⟩

theorem ChannelInv.withSnap (h : ChannelInv g c x) {v : BitVec 64} (hm : g.ovfMode = .snapshot)
    (hv : v.toNat < 2 ^ g.wTrk) : ChannelInv g c { x with snap := v } :=
  ⟨h.lastLt, h.idleZero, hv, fun hm' => by simp [hm] at hm'⟩

end

/-! ### The shared operations keep the invariant -/

section
variable {s : State} {c k : Nat}

theorem State.Inv.emitOutput (h : s.Inv) (o : StepOutput) : (s.emitOutput o).Inv := h.congr rfl rfl rfl rfl

theorem State.Inv.resetTally (h : s.Inv) (hc : c < s.cfg.numCh) : (resetTally c s).Inv := by
  cases hm : s.cfg.ovfMode with
  | snapshot =>
    rw [resetTally_snapshot hm]
    exact h.setChan ((h.chanInv c hc).withSnap hm (h.trkLt _ (h.tmr_lt hc)))
  | sharedReset =>
    rw [resetTally_sharedReset hm]
    exact h.setTrk (Nat.two_pow_pos _)

/-- A queue that keeps its storage and read index and holds no more than before meets its invariant. -/
theorem State.Inv.setQueue_of_occ_le (h : s.Inv) (hk : k < s.cfg.numQ) {x : Queue}
    (hs : x.store = (s.queue k).store) (hr : x.rd = (s.queue k).rd) (ho : x.occ ≤ (s.queue k).occ) :
    (s.setQueue k x).Inv := by
  have hi := h.queueInv k hk
  refine h.setQueue (hs ▸ hi.storeWf) (hs ▸ hi.slotsOk) (hr ▸ hi.rdLt) (ho.trans hi.occLe) fun i hlt => ?_
  rw [hs, hr]
  exact hi.heldSlot i (by omega)

/-- A PUSH that succeeds writes the one slot that becomes held (42_sample_queue.md R152). -/
theorem State.Inv.pushStore (h : s.Inv) (hk : k < s.cfg.numQ) {x : Sample} (hx : x.dur.toNat < 2 ^ s.cfg.wDur)
    (hf : (s.queue k).occ ≠ s.cfg.capOf k) : (pushStore k x s).Inv := by
  have hi := h.queueInv k hk
  have hocc := hi.occLe
  rw [pushStore_eq (h.qLen ▸ hk)]
  refine h.setQueue (Memory.write_wf hi.storeWf) (fun e he => ?_) hi.rdLt (by show _ + 1 ≤ _; omega) fun i hlt => ?_
  · rcases Memory.mem_write he with rfl | he
    · exact ⟨Nat.mod_lt _ (Nat.zero_lt_of_lt hi.rdLt), hx⟩
    · exact hi.slotsOk e he
  · show (((s.queue k).store.write (s.tailSlot k) x).find? (s.slotOf k i)).isSome
    by_cases he : s.slotOf k i = s.tailSlot k
    · simp [he]
    · rw [Memory.find?_write_of_ne he]
      have hne : i ≠ (s.queue k).occ := fun hio => he (hio ▸ rfl)
      have hlt : i < (s.queue k).occ + 1 := hlt
      exact hi.heldSlot i (by omega)

theorem State.Inv.dequeue (h : s.Inv) (hk : k < s.cfg.numQ) (n : Nat) : (dequeue k n s).Inv := by
  have hi := h.queueInv k hk
  refine h.setQueue hi.storeWf hi.slotsOk (Nat.mod_lt _ (Nat.zero_lt_of_lt hi.rdLt))
    ((Nat.sub_le _ _).trans hi.occLe) fun i hlt => ?_
  have hslot : (s.slotOf k n + i) % s.cfg.capOf k = s.slotOf k (n + i) := by
    simp [State.slotOf, Nat.add_assoc]
  have hlt : i < (s.queue k).occ - n := hlt
  show ((s.queue k).store.find? ((s.slotOf k n + i) % s.cfg.capOf k)).isSome
  exact hslot ▸ hi.heldSlot (n + i) (by omega)

theorem State.Inv.openQueue (h : s.Inv) (hk : k < s.cfg.numQ) : (openQueue k s).Inv := by
  have hi := h.queueInv k hk
  exact h.setQueue hi.storeWf hi.slotsOk (Nat.zero_lt_of_lt hi.rdLt) (Nat.zero_le _)
    fun i hlt => absurd hlt (Nat.not_lt_zero i)

theorem State.Inv.openState (h : s.Inv) (hc : c < s.cfg.numCh) : (openState c s).Inv :=
  ((h.setChan ((h.chanInv c hc).idled.withArmed true)).resetTally hc).openQueue (by simpa using h.q_lt hc)

end

/-! ### Every step keeps the invariant -/

/-- Every command keeps the invariant, whatever its branch. -/
theorem CommandCase.inv {s t : State} {i : Instr} (h : CommandCase s i t) (hs : s.Inv) : t.Inv := by
  cases h with
  | raised i st _ => exact hs.emitOutput _
  | edgeIdle c raw hc _ hr _ =>
    exact ((hs.setChan ((hs.chanInv c hc).started hr)).resetTally hc).emitOutput _
  | edgeStored c raw hc _ hr hp hf =>
    have hpush := hs.pushStore (hs.q_lt hc) (x := s.edgeSample c raw) (duration_lt s c raw) hf
    exact ((hpush.setChan ((hs.chanInv c hc).toggled hr hp)).resetTally hc).emitOutput _
  | edgeDropped c raw hc _ hr hp _ =>
    have hpush : (pushDrop (s.cfg.qOf c) s).Inv := hs.setQueue_of_occ_le (hs.q_lt hc) rfl rfl le_rfl
    exact ((hpush.setChan ((hs.chanInv c hc).toggled hr hp)).resetTally hc).emitOutput _
  | ovf t _ =>
    refine (hs.setTrk ?_).emitOutput _
    rw [trkIncr_toNat (Cfg.wf_widths hs.cfgWf).2.2]
    exact Nat.mod_lt _ (Nat.two_pow_pos _)
  | opened c hc _ => exact (hs.openState hc).emitOutput _
  | closed c hc => exact (hs.setChan ((hs.chanInv c hc).withArmed false)).emitOutput _
  | read c max hc => exact (hs.dequeue (hs.q_lt hc) _).emitOutput _
  | cleared c hc =>
    have hclear := hs.setQueue_of_occ_le (hs.q_lt hc) (x := { s.queue (s.cfg.qOf c) with occ := 0 }) rfl rfl
      (Nat.zero_le _)
    exact hclear.emitOutput _
  | setwm c value hc =>
    have hwm := hs.setQueue_of_occ_le (hs.q_lt hc) (x := { s.queue (s.cfg.qOf c) with wm := value }) rfl rfl le_rfl
    exact hwm.emitOutput _
  | rdreg id reg _ => exact hs.emitOutput _
  | chreset c hc => exact ((hs.setChan (hs.chanInv c hc).idled).resetTally hc).emitOutput _

theorem step_inv {s t : State} (hs : s.Inv) (h : step s = .next t) : t.Inv := by
  cases step_cases h with
  | idle _ => exact hs
  | command w draw rest i t _ _ hc => exact hc.inv (hs.congr rfl rfl rfl rfl)
  | illegal w draw rest e _ _ => exact hs.congr rfl rfl rfl rfl
  | reset rest _ => exact (hs.congr rfl rfl rfl rfl : State.Inv { s with inputs := rest }).resetElements.emitOutput _

/-- Settles O39, by the branch each command takes and what each shared operation keeps. -/
theorem everyStepKeepsTheInvariant : Obligations.EveryStepKeepsTheInvariant := fun _ _ => step_inv

/-! ### The reachable states -/

/-- No command writes the configuration (10_state.md R37). -/
theorem CommandCase.cfg {s t : State} {i : Instr} (h : CommandCase s i t) : t.cfg = s.cfg := by
  cases h <;> simp

/-- No step writes the configuration (10_state.md R37). -/
theorem step_cfg {s t : State} (h : step s = .next t) : t.cfg = s.cfg := by
  cases step_cases h with
  | idle _ => rfl
  | command w draw rest i t _ _ hc => exact hc.cfg
  | illegal w draw rest e _ _ => rfl
  | reset rest _ => rfl

/-- Every run from a state that meets the invariant keeps it, and the configuration. -/
theorem run_inv {n : Nat} {s t : State} (hs : s.Inv) (h : Sys2Proof.core.run n s = .next t) :
    t.Inv ∧ t.cfg = s.cfg :=
  run_induction (P := fun u => u.Inv ∧ u.cfg = s.cfg)
    (fun _ _ hu hstep => ⟨step_inv hu.1 hstep, (step_cfg hstep).trans hu.2⟩) ⟨hs, rfl⟩ h

/-- Settles O40, from the invariant at reset and along every run. -/
theorem reachableStatesMeetChannelInvariants : Obligations.ReachableStatesMeetChannelInvariants := by
  intro g evs n t hg hrun c hc
  obtain ⟨ht, hcfg⟩ := run_inv (invariantHoldsAfterReset.1 g evs hg) hrun
  have hcfg : t.cfg = g := hcfg
  have hi := ht.chanInv c (hcfg ▸ hc)
  exact ⟨hi.idleZero, hcfg ▸ hi.lastLt⟩

/-! ### The armed bit -/

/-- What a channel reads as after a channel was written, whether or not that channel exists. -/
theorem chan_setChan_cases (s : State) (c c' : Nat) (x : Channel) :
    (s.setChan c x).chan c' = s.chan c' ∨ c' = c ∧ (s.setChan c x).chan c' = x := by
  by_cases hc : c' = c
  · subst hc
    by_cases hl : c' < s.ch.length
    · exact .inr ⟨rfl, State.chan_setChan_self hl⟩
    · exact .inl (by simp [State.setChan, List.set_eq_of_length_le (Nat.le_of_not_lt hl)])
  · exact .inl (State.chan_setChan_of_ne hc)

/-- Writing a channel with its armed bit as it stands changes no armed bit. -/
theorem armed_setChan_of_eq {s : State} {c : Nat} {x : Channel} (hx : x.armed = (s.chan c).armed) (c' : Nat) :
    ((s.setChan c x).chan c').armed = (s.chan c').armed := by
  obtain h | ⟨rfl, h⟩ := chan_setChan_cases s c c' x
  · rw [h]
  · rw [h, hx]

@[simp] theorem resetTally_armed (c : Nat) (s : State) (c' : Nat) :
    ((resetTally c s).chan c').armed = (s.chan c').armed := by
  cases hm : s.cfg.ovfMode with
  | snapshot => rw [resetTally_snapshot hm]; exact armed_setChan_of_eq (by rfl) c'
  | sharedReset => rw [resetTally_sharedReset hm]; rfl

/-- What a command does to an armed bit: OPEN of the channel sets it, CLOSE of the channel clears it, and every other
command keeps it (10_state.md R31). -/
theorem CommandCase.armed_cases {s t : State} {i : Instr} (h : CommandCase s i t) (c : Nat) :
    (t.chan c).armed = (s.chan c).armed
      ∨ (i = .openCh c ∧ s.initOk = true ∧ (t.chan c).armed = true)
      ∨ (i = .close c ∧ (t.chan c).armed = false) := by
  cases h with
  | raised i st _ => exact .inl rfl
  | edgeIdle c' raw _ _ _ _ => exact .inl ((resetTally_armed c' _ c).trans (armed_setChan_of_eq (by rfl) c))
  | edgeStored c' raw _ _ _ _ _ => exact .inl ((resetTally_armed c' _ c).trans (armed_setChan_of_eq (by rfl) c))
  | edgeDropped c' raw _ _ _ _ _ => exact .inl ((resetTally_armed c' _ c).trans (armed_setChan_of_eq (by rfl) c))
  | ovf t' _ => exact .inl rfl
  | opened c' _ hd =>
    have ht := resetTally_armed c' (s.setChan c' { (s.chan c').idled with armed := true }) c
    obtain h | ⟨rfl, h⟩ := chan_setChan_cases s c' c { (s.chan c').idled with armed := true }
    · exact .inl (ht.trans (by rw [h]))
    · exact .inr (.inl ⟨rfl, hd, ht.trans (by rw [h])⟩)
  | closed c' _ =>
    obtain h | ⟨rfl, h⟩ := chan_setChan_cases s c' c { s.chan c' with armed := false }
    · exact .inl (congrArg Channel.armed h)
    · exact .inr (.inr ⟨rfl, congrArg Channel.armed h⟩)
  | read c' max _ => exact .inl rfl
  | cleared c' _ => exact .inl rfl
  | setwm c' value _ => exact .inl rfl
  | rdreg id reg _ => exact .inl rfl
  | chreset c' _ => exact .inl ((resetTally_armed c' _ c).trans (armed_setChan_of_eq (by rfl) c))

/-- The Reset event puts every channel at its reset value (70_reset_and_hazards.md R230). -/
@[simp] theorem resetElements_chan (s : State) (c : Nat) : (resetElements s).chan c = Channel.reset :=
  State.resetWith_chan s.cfg c

/-- The Reset event puts every queue at its reset value (70_reset_and_hazards.md R230). -/
@[simp] theorem resetElements_queue (s : State) (k : Nat) : (resetElements s).queue k = Queue.reset s.cfg k :=
  State.resetWith_queue s.cfg k

/-- Settles O32, by what the step was and what each command does to an armed bit. -/
theorem armedChangesOnlyByOpenCloseReset : Obligations.ArmedChangesOnlyByOpenCloseReset := by
  intro s t c hstep hne
  cases step_cases hstep with
  | idle _ => exact absurd rfl hne
  | command w draw rest i t hin hdec hcase =>
    obtain hkeep | ⟨rfl, hdraw, harmed⟩ | ⟨rfl, harmed⟩ := hcase.armed_cases c
    · exact absurd hkeep hne
    · have hdraw : draw = true := hdraw
      exact .inl ⟨w, rest, hdraw ▸ hin, hdec, harmed⟩
    · exact .inr (.inl ⟨w, draw, rest, hin, hdec, harmed⟩)
  | illegal w draw rest e _ _ => exact absurd rfl hne
  | reset rest hin => exact .inr (.inr ⟨rest, hin, by simp [Channel.reset]⟩)

/-! ### What an observer can tell apart -/

/-- Two results are next states that an observer cannot tell apart (10_state.md R35). -/
def AnswersObsEq (r r' : Result) : Prop := ∃ t t', r = .next t ∧ r' = .next t' ∧ t.ObsEq t'

/-- Both results take the same branch when their conditions agree. -/
theorem AnswersObsEq.ite {p q : Bool} {a b a' b' : Result} (hpq : p = q)
    (ht : p = true → AnswersObsEq a a') (hf : ¬ p = true → AnswersObsEq b b') :
    AnswersObsEq (if p then a else b) (if q then a' else b') := by
  subst hpq
  by_cases hp : p = true
  · rw [if_pos hp, if_pos hp]; exact ht hp
  · rw [if_neg hp, if_neg hp]; exact hf hp

/-- The relation of two queues reads their contents and records alone. -/
theorem QueueObsEq.congr {s u s' u' : State} {k : Nat} (h : QueueObsEq s u k) (hcs : s'.content k = s.content k)
    (hcu : u'.content k = u.content k) (hqs : s'.queue k = s.queue k) (hqu : u'.queue k = u.queue k) :
    QueueObsEq s' u' k :=
  ⟨by rw [hcs, hcu, h.content], by rw [hqs, hqu, h.occ], by rw [hqs, hqu, h.wm], by rw [hqs, hqu, h.drop]⟩

namespace State.ObsEq

variable {s u : State} {c k : Nat}

/-! #### What two such states read alike -/

theorem chan_eq (h : s.ObsEq u) (c : Nat) : s.chan c = u.chan c := by simp [State.chan, h.ch]

theorem trkAt_eq (h : s.ObsEq u) (t : Nat) : s.trkAt t = u.trkAt t := by simp [State.trkAt, h.trk]

theorem tally_eq (h : s.ObsEq u) (c : Nat) : s.tally c = u.tally c := by
  simp [State.tally, h.cfg, h.trkAt_eq, h.chan_eq]

theorem edgeSample_eq (h : s.ObsEq u) (c : Nat) (raw : Arg) : s.edgeSample c raw = u.edgeSample c raw := by
  simp [State.edgeSample, State.duration, h.cfg, h.tally_eq, h.chan_eq]

theorem validChan_eq (h : s.ObsEq u) (c : Nat) : s.validChan c = u.validChan c := by simp [State.validChan, h.cfg]

theorem validTmr_eq (h : s.ObsEq u) (t : Nat) : s.validTmr t = u.validTmr t := by simp [State.validTmr, h.cfg]

theorem queueFull_eq (h : s.ObsEq u) (hk : k < s.cfg.numQ) : s.queueFull k = u.queueFull k := by
  simp [State.queueFull, h.cfg, (h.queues k hk).occ]

theorem pushNotify_eq (h : s.ObsEq u) (hk : k < s.cfg.numQ) : pushNotify k s = pushNotify k u := by
  simp [pushNotify, Queue.crosses, h.queueFull_eq hk, (h.queues k hk).occ, (h.queues k hk).wm]

theorem readCount_eq (h : s.ObsEq u) (hk : k < s.cfg.numQ) (max : Arg) : s.readCount k max = u.readCount k max := by
  simp [State.readCount, (h.queues k hk).occ]

theorem readData_eq (h : s.ObsEq u) (hk : k < s.cfg.numQ) {n : Nat} (hn : n ≤ (s.queue k).occ) :
    s.readData k n = u.readData k n := by
  rw [Machine.readData_eq hn, Machine.readData_eq ((h.queues k hk).occ ▸ hn), (h.queues k hk).content]

/-- Every register reads alike: no register shows `rd` or a slot (10_state.md R32). -/
theorem regValue_eq (h : s.ObsEq u) (hs : s.Inv) {id : Nat} (r : Reg)
    (hid : r.namesTimer = false → id < s.cfg.numCh) :
    s.regValue id r = u.regValue id r := by
  have hq (hr : r.namesTimer = false) := h.queues _ (hs.q_lt (hid hr))
  cases r with
  | chStatus => simp [State.regValue, h.chan_eq]
  | chLast => simp [State.regValue, h.chan_eq]
  | chOvf => simp [State.regValue, h.tally_eq]
  | chBind => simp [State.regValue, h.cfg]
  | chSnap => simp [State.regValue, h.chan_eq]
  | qOcc => simp only [State.regValue, ← h.cfg, (hq rfl).occ]
  | qWm => simp only [State.regValue, ← h.cfg, (hq rfl).wm]
  | qDrop => simp only [State.regValue, ← h.cfg, (hq rfl).drop]
  | qCap => simp [State.regValue, h.cfg]
  | tmrTrk => simp [State.regValue, h.trkAt_eq]
  | tmrMod => simp [State.regValue, h.cfg]

/-! #### The same update of both states -/

theorem setChan (h : s.ObsEq u) (c : Nat) (x : Channel) : (s.setChan c x).ObsEq (u.setChan c x) :=
  ⟨h.cfg, by simp [h.ch], h.trk, h.initOk, h.inputs, h.outputs, fun k hk =>
    (h.queues k hk).congr rfl rfl rfl rfl⟩

theorem setTrk (h : s.ObsEq u) (t : Nat) (v : BitVec 64) : (s.setTrk t v).ObsEq (u.setTrk t v) :=
  ⟨h.cfg, h.ch, by simp [h.trk], h.initOk, h.inputs, h.outputs, fun k hk =>
    (h.queues k hk).congr rfl rfl rfl rfl⟩

theorem emitOutput (h : s.ObsEq u) (o : StepOutput) : (s.emitOutput o).ObsEq (u.emitOutput o) :=
  ⟨h.cfg, h.ch, h.trk, h.initOk, h.inputs, by simp [h.outputs], fun k hk =>
    (h.queues k hk).congr rfl rfl rfl rfl⟩

theorem withInputs (h : s.ObsEq u) (l : List Event) :
    State.ObsEq { s with inputs := l } { u with inputs := l } :=
  ⟨h.cfg, h.ch, h.trk, h.initOk, rfl, h.outputs, fun k hk =>
    (h.queues k hk).congr rfl rfl rfl rfl⟩

theorem withDraw (h : s.ObsEq u) (b : Bool) : State.ObsEq { s with initOk := b } { u with initOk := b } :=
  ⟨h.cfg, h.ch, h.trk, rfl, h.inputs, h.outputs, fun k hk =>
    (h.queues k hk).congr rfl rfl rfl rfl⟩

theorem resetTally (h : s.ObsEq u) (c : Nat) : (resetTally c s).ObsEq (resetTally c u) := by
  cases hm : s.cfg.ovfMode with
  | snapshot =>
    rw [resetTally_snapshot hm, resetTally_snapshot (h.cfg ▸ hm), ← h.cfg, ← h.chan_eq, ← h.trkAt_eq]
    exact h.setChan _ _
  | sharedReset =>
    rw [resetTally_sharedReset hm, resetTally_sharedReset (h.cfg ▸ hm), ← h.cfg]
    exact h.setTrk _ _

section
variable (h : s.ObsEq u) (hks : k < s.q.length) (hku : k < u.q.length)
include h hks hku

/-- Writing queue `k` in both states, with the same content and the same visible fields. -/
theorem setQueue {x y : Queue} (hc : (s.setQueue k x).content k = (u.setQueue k y).content k) (ho : x.occ = y.occ)
    (hw : x.wm = y.wm) (hd : x.drop = y.drop) : (s.setQueue k x).ObsEq (u.setQueue k y) := by
  refine ⟨h.cfg, h.ch, h.trk, h.initOk, h.inputs, h.outputs, fun k' hk' => ?_⟩
  by_cases he : k' = k
  · subst he
    constructor
    · exact hc
    all_goals rwa [State.queue_setQueue_self hks, State.queue_setQueue_self hku]
  · exact (h.queues k' hk').congr (content_setQueue_of_ne he) (content_setQueue_of_ne he)
      (State.queue_setQueue_of_ne he) (State.queue_setQueue_of_ne he)

/-- Emptying queue `k` in both states, wherever the read index goes. -/
theorem setQueue_empty {x y : Queue} (hx : x.occ = 0) (hy : y.occ = 0) (hw : x.wm = y.wm) (hd : x.drop = y.drop) :
    (s.setQueue k x).ObsEq (u.setQueue k y) := by
  refine h.setQueue hks hku ?_ (hx.trans hy.symm) hw hd
  rw [content_eq_nil (by rw [State.queue_setQueue_self hks, hx]),
    content_eq_nil (by rw [State.queue_setQueue_self hku, hy])]

theorem openQueue : (openQueue k s).ObsEq (openQueue k u) :=
  h.setQueue_empty hks hku rfl rfl (congrArg (Cfg.wmDefault · k) h.cfg) rfl

variable (hk : k < s.cfg.numQ)
include hk

theorem clearQueue :
    (s.setQueue k { s.queue k with occ := 0 }).ObsEq (u.setQueue k { u.queue k with occ := 0 }) :=
  h.setQueue_empty hks hku rfl rfl (h.queues k hk).wm (h.queues k hk).drop

/-- Writing the same watermark and drop count in both states. -/
theorem setWmDrop {w w' d d' : Arg} (hw : w = w') (hd : d = d') :
    (s.setQueue k { s.queue k with wm := w, drop := d }).ObsEq
      (u.setQueue k { u.queue k with wm := w', drop := d' }) := by
  have hq := h.queues k hk
  refine h.setQueue hks hku ?_ hq.occ hw hd
  rw [content_setQueue_of_same hks, content_setQueue_of_same hku, hq.content]
  all_goals rfl

theorem pushDrop : (pushDrop k s).ObsEq (pushDrop k u) :=
  h.setWmDrop hks hku hk (h.queues k hk).wm (congrArg (· + 1) (h.queues k hk).drop)

theorem setWatermark (value : Arg) :
    (s.setQueue k { s.queue k with wm := value }).ObsEq (u.setQueue k { u.queue k with wm := value }) :=
  h.setWmDrop hks hku hk rfl (h.queues k hk).drop

theorem dequeue (n : Nat) : (dequeue k n s).ObsEq (dequeue k n u) := by
  have hq := h.queues k hk
  refine h.setQueue hks hku ?_ (congrArg (· - n) hq.occ) hq.wm hq.drop
  exact (dequeue_content hks).trans ((congrArg (List.drop n) hq.content).trans (dequeue_content hku).symm)

/-- A PUSH that succeeds appends the sample to both contents, in whichever slot. -/
theorem pushStore (x : Sample) (hf : (s.queue k).occ < s.cfg.capOf k) :
    (pushStore k x s).ObsEq (pushStore k x u) := by
  have hq := h.queues k hk
  have hfu : (u.queue k).occ < u.cfg.capOf k := by rwa [← hq.occ, ← h.cfg]
  have hc : (Machine.pushStore k x s).content k = (Machine.pushStore k x u).content k := by
    rw [pushStore_content hks hf, pushStore_content hku hfu, hq.content]
  rw [pushStore_eq hks, pushStore_eq hku] at hc ⊢
  exact h.setQueue hks hku hc (congrArg (· + 1) hq.occ) hq.wm hq.drop

end

theorem resetElements (h : s.ObsEq u) : (resetElements s).ObsEq (resetElements u) := by
  refine ⟨h.cfg, by simp [Machine.resetElements, h.cfg], by simp [Machine.resetElements, h.cfg], h.initOk, h.inputs,
    h.outputs, fun k _ => ?_⟩
  constructor
  · rw [content_eq_nil (by rw [resetElements_queue]; rfl), content_eq_nil (by rw [resetElements_queue]; rfl)]
  all_goals rw [resetElements_queue, resetElements_queue, h.cfg]

/-! #### The same event taken in both states -/

/-- The same response in both states. -/
theorem respond (h : s.ObsEq u) (st : Status) (d : List Word) (n : Option Nat) :
    AnswersObsEq (respond st d n s) (respond st d n u) := ⟨_, _, rfl, rfl, h.emitOutput _⟩

/-- The same status raised in both states. -/
theorem raise (h : s.ObsEq u) (st : Status) : AnswersObsEq (raise st s) (raise st u) := h.respond st [] none

/-- The check of a channel number comes out alike, and past it the channel exists (60_exceptions.md R201). -/
theorem checkChan (h : s.ObsEq u) {a b : Result} (hab : c < s.cfg.numCh → AnswersObsEq a b) :
    AnswersObsEq (if !s.validChan c then Machine.raise .errId s else a)
      (if !u.validChan c then Machine.raise .errId u else b) :=
  .ite (by rw [h.validChan_eq]) (fun _ => h.raise _) fun hc => hab (by simpa [State.validChan] using hc)

theorem execRdreg (h : s.ObsEq u) (hs : s.Inv) (id : Nat) (r : Reg) :
    AnswersObsEq (execRdreg id r s) (execRdreg id r u) := by
  refine .ite (by rw [h.validTmr_eq, h.validChan_eq]) (fun _ => h.raise _) fun hv => ?_
  rw [← h.regValue_eq hs r fun hr => by simpa [hr, State.validChan] using hv]
  exact h.respond _ _ _

section
variable (h : s.ObsEq u) (hs : s.Inv) (hu : u.Inv)
include h hs hu

theorem queue_lts (hc : c < s.cfg.numCh) : s.cfg.qOf c < s.q.length ∧ s.cfg.qOf c < u.q.length :=
  ⟨hs.queue_lt hc, hu.qLen ▸ h.cfg ▸ hs.q_lt hc⟩

theorem edgeActive (hc : c < s.cfg.numCh) (raw : Arg) : AnswersObsEq (edgeActive c raw s) (edgeActive c raw u) := by
  obtain ⟨hks, hku⟩ := h.queue_lts hs hu hc
  have hk := hs.q_lt hc
  have hpush : (pushState (s.cfg.qOf c) (s.edgeSample c raw) s).ObsEq
      (pushState (s.cfg.qOf c) (s.edgeSample c raw) u) := by
    by_cases hf : (s.queue (s.cfg.qOf c)).occ = s.cfg.capOf (s.cfg.qOf c)
    · rw [pushState_full hf, pushState_full (by rw [← (h.queues _ hk).occ, ← h.cfg, hf])]
      exact h.pushDrop hks hku hk
    · rw [pushState_notFull hf, pushState_notFull (by rwa [← (h.queues _ hk).occ, ← h.cfg])]
      exact h.pushStore hks hku hk _ (Nat.lt_of_le_of_ne (hs.queueInv _ hk).occLe hf)
  simp only [Machine.edgeActive, ← h.cfg, ← h.chan_eq, ← h.edgeSample_eq, ← h.queueFull_eq hk, ← h.pushNotify_eq hk]
  exact ((hpush.setChan c _).resetTally c).respond _ _ _

theorem execEdge (raw : Arg) : AnswersObsEq (execEdge c raw s) (execEdge c raw u) := by
  refine h.checkChan fun hc => .ite (by rw [h.chan_eq]) (fun _ => h.raise _) fun _ => ?_
  refine .ite (by simp [State.rawInRange, h.cfg]) (fun _ => h.raise _) fun _ => ?_
  refine .ite (by rw [h.chan_eq]) (fun _ => ?_) fun _ => h.edgeActive hs hu hc raw
  simp only [edgeIdle, ← h.chan_eq]
  exact ((h.setChan c _).resetTally c).respond _ _ _

theorem execOpen : AnswersObsEq (execOpen c s) (execOpen c u) := by
  refine h.checkChan fun hc => .ite (by rw [h.initOk]) (fun _ => h.raise _) fun _ => ?_
  obtain ⟨hks, hku⟩ := h.queue_lts hs hu hc
  simp only [openState, ← h.chan_eq, ← h.cfg]
  exact (((h.setChan c _).resetTally c).openQueue (by simpa using hks) (by simpa using hku)).respond _ _ _

theorem execRead (max : Arg) : AnswersObsEq (execRead c max s) (execRead c max u) := by
  refine h.checkChan fun hc => ?_
  obtain ⟨hks, hku⟩ := h.queue_lts hs hu hc
  have hk := hs.q_lt hc
  have hn : s.readCount (s.cfg.qOf c) max ≤ (s.queue (s.cfg.qOf c)).occ := Nat.min_le_right _ _
  simp only [← h.cfg, ← h.readCount_eq hk, ← h.readData_eq hk hn]
  exact (h.dequeue hks hku hk _).respond _ _ _

theorem execClear : AnswersObsEq (execClear c s) (execClear c u) := by
  refine h.checkChan fun hc => ?_
  obtain ⟨hks, hku⟩ := h.queue_lts hs hu hc
  simp only [← h.cfg]
  exact (h.clearQueue hks hku (hs.q_lt hc)).respond _ _ _

theorem execSetwm (value : Arg) : AnswersObsEq (execSetwm c value s) (execSetwm c value u) := by
  refine h.checkChan fun hc => ?_
  obtain ⟨hks, hku⟩ := h.queue_lts hs hu hc
  simp only [← h.cfg]
  exact (h.setWatermark hks hku (hs.q_lt hc) value).respond _ _ _

/-- Every command answers alike in both states. -/
theorem exec (i : Instr) : AnswersObsEq (exec i s) (exec i u) := by
  cases i with
  | edge c raw => exact h.execEdge hs hu raw
  | ovf t =>
    refine .ite (by rw [h.validTmr_eq]) (fun _ => h.raise _) fun _ => ?_
    simp only [← h.cfg, ← h.trkAt_eq]
    exact (h.setTrk t _).respond _ _ _
  | openCh c => exact h.execOpen hs hu
  | close c =>
    refine h.checkChan fun _ => ?_
    simp only [← h.chan_eq]
    exact (h.setChan c _).respond _ _ _
  | read c max => exact h.execRead hs hu max
  | clear c => exact h.execClear hs hu
  | setwm c value => exact h.execSetwm hs hu value
  | rdreg id r => exact h.execRdreg hs id r
  | chreset c =>
    refine h.checkChan fun _ => ?_
    simp only [← h.chan_eq]
    exact ((h.setChan c _).resetTally c).respond _ _ _

/-- The next event is taken alike in both states. -/
theorem step : AnswersObsEq (step s) (step u) := by
  cases hin : s.inputs with
  | nil => rw [step_of_no_inputs hin, step_of_no_inputs (h.inputs ▸ hin)]; exact ⟨s, u, rfl, rfl, h⟩
  | cons e rest =>
    rw [step_of_inputs hin, step_of_inputs (h.inputs ▸ hin)]
    cases e with
    | reset => exact (h.withInputs rest).resetElements.respond _ _ _
    | cmd w draw =>
      simp only [takeEvent, takeCommand]
      cases decode w with
      | ok i =>
        exact ((h.withInputs rest).withDraw draw).exec (hs.congr rfl rfl rfl rfl) (hu.congr rfl rfl rfl rfl) i
      | error e => exact (h.withInputs rest).raise _

end

end State.ObsEq

/-- Settles O41, by induction on the number of steps: the relation and both invariants are kept by every step. -/
theorem hiddenReadIndexIsUnobservable : Obligations.HiddenReadIndexIsUnobservable := by
  intro s u n hs hu h
  induction n generalizing s u with
  | zero => exact ⟨s, u, rfl, rfl, h⟩
  | succ n ih =>
    obtain ⟨t, t', ht, ht', hobs⟩ := h.step hs hu
    rw [run_succ n ht, run_succ n ht']
    exact ih t t' (step_inv hs ht) (step_inv hu ht') hobs

end Sys2Proof.Machine

/-! The statements about commands and the sample storage: which command a step runs, and what any command does to the
order of a queue's samples (20_memory.md R55 to R58). -/

namespace Sys2Proof.Machine

/-! ### The command a step runs -/

/-- A word that decodes is executed with the draw delivered beside it (30_encoding.md R74). -/
theorem takeCommand_of_decode {w : Word} {i : Instr} (h : decode w = .ok i) (draw : Bool) (s : State) :
    takeCommand w draw s = exec i { s with initOk := draw } := by
  simp [takeCommand, h]

/-- Settles O7: the step takes the event, and taking a word that decodes is executing its command. -/
theorem stepRunsTheDecodedCommand : Obligations.StepRunsTheDecodedCommand := by
  intro s w draw rest i hin hdec
  exact (step_of_inputs hin).trans (takeCommand_of_decode hdec draw _)

/-! ### The order of the samples -/

/-- Queue `k` has lost some number of its oldest samples, and nothing else (42_sample_queue.md R157). -/
def LosesOldest (s t : State) (k : Nat) : Prop := ∃ n, t.content k = (s.content k).drop n

theorem LosesOldest.of_eq {s t : State} {k : Nat} (h : t.content k = s.content k) : LosesOldest s t k := ⟨0, h⟩

/-- Writing one queue so that it loses its oldest samples does so to no other queue, and adds to none. -/
theorem LosesOldest.setQueue {s : State} {k : Nat} {x : Queue} (h : LosesOldest s (s.setQueue k x) k) (k' : Nat) :
    LosesOldest s (s.setQueue k x) k' := by
  by_cases hk : k' = k
  · exact hk ▸ h
  · exact .of_eq (content_setQueue_of_ne hk)

/-- An emptied queue has lost every sample (42_sample_queue.md R160). -/
theorem losesOldest_setQueue_empty {s : State} {k : Nat} {x : Queue} (hk : k < s.q.length) (hx : x.occ = 0) (k' : Nat) :
    LosesOldest s (s.setQueue k x) k' := by
  refine LosesOldest.setQueue ⟨(s.content k).length, ?_⟩ k'
  rw [List.drop_length]
  exact content_eq_nil (by rw [State.queue_setQueue_self hk, hx])

/-- OPEN empties its own queue and keeps every other content (43_control.md R180). -/
theorem losesOldest_openState {s : State} {c : Nat} (hq : s.cfg.qOf c < s.q.length) (k : Nat) :
    LosesOldest s (openState c s) k := by
  have h : LosesOldest (resetTally c (s.setChan c { (s.chan c).idled with armed := true })) (openState c s) k :=
    losesOldest_setQueue_empty (by simpa using hq) rfl k
  obtain ⟨n, hn⟩ := h
  exact ⟨n, by simpa using hn⟩

/-- What a command does to the content of a queue: it removes oldest samples or none, or it is an EDGE of an armed
ACTIVE channel of that queue that stores its sample at the tail (40_capture_channel.md R108). -/
theorem CommandCase.content_cases {s t : State} {i : Instr} (h : CommandCase s i t) (hs : s.Inv) (k : Nat) :
    LosesOldest s t k
      ∨ ∃ c raw, i = .edge c raw ∧ (s.chan c).armed = true ∧ (s.chan c).prior = true ∧ s.cfg.qOf c = k
          ∧ t.content k = s.content k ++ [s.edgeSample c raw] := by
  cases h with
  | raised i st _ => exact .inl (.of_eq rfl)
  | edgeIdle c raw _ _ _ _ => exact .inl (.of_eq (by simp))
  | edgeStored c raw hc ha _ hp hf =>
    have hq := hs.queue_lt hc
    by_cases hk : s.cfg.qOf c = k
    · have hocc := Nat.lt_of_le_of_ne (hs.queueInv _ (hs.q_lt hc)).occLe hf
      exact .inr ⟨c, raw, rfl, ha, hp, hk, by simpa [hk] using pushStore_content (x := s.edgeSample c raw) hq hocc⟩
    · exact .inl (.of_eq (by simp [pushStore_eq hq, content_setQueue_of_ne (Ne.symm hk)]))
  | edgeDropped c raw hc _ _ _ _ =>
    have hdrop : (pushDrop (s.cfg.qOf c) s).content k = s.content k :=
      content_setQueue_of_same (hs.queue_lt hc) rfl rfl rfl
    exact .inl (.of_eq (by simp [hdrop]))
  | ovf t' _ => exact .inl (.of_eq rfl)
  | opened c hc _ => exact .inl (losesOldest_openState (hs.queue_lt hc) k)
  | closed c _ => exact .inl (.of_eq rfl)
  | read c max hc => exact .inl (LosesOldest.setQueue ⟨_, dequeue_content (hs.queue_lt hc)⟩ k)
  | cleared c hc => exact .inl (losesOldest_setQueue_empty (hs.queue_lt hc) rfl k)
  | setwm c value hc => exact .inl (.of_eq (content_setQueue_of_same (hs.queue_lt hc) rfl rfl rfl))
  | rdreg id reg _ => exact .inl (.of_eq rfl)
  | chreset c _ => exact .inl (.of_eq (by simp))

/-- Settles O31, by what the command was and what it does to the content of a queue. -/
theorem fifoOrderIsKept : Obligations.FifoOrderIsKept := by
  intro s t i k hs _ hexec
  obtain hlost | ⟨c, raw, hi, harmed, hprior, hq, hcontent⟩ := (exec_cases hexec).content_cases hs k
  · exact .inl hlost
  · exact .inr ⟨c, raw, _, hi, harmed, hprior, hq, hcontent⟩

end Sys2Proof.Machine

/-! The statements about the encoding: which words decode, to which commands, and what the words of the commands are
(30_encoding.md R70 to R87). -/

namespace Sys2Proof

/-! ### The ID of a command (30_encoding.md R70) -/

theorem Instr.wf_iff (i : Instr) : i.wf = true ↔ i.id < 256 := by
  cases i <;> simp [Instr.wf, fitsId, Instr.id]

/-- The ID field gives back an ID that fits it. -/
theorem ofNat_id_toNat {i : Instr} (h : i.wf = true) : (BitVec.ofNat 8 i.id).toNat = i.id :=
  Nat.mod_eq_of_lt (i.wf_iff.1 h)

/-! ### What each part of the decoder accepts -/

theorem decodeId_eq_ok {sel : BitVec 8} {arg : Arg} {i j : Instr} :
    decodeId sel arg i = .ok j ↔ sel = 0 ∧ arg = 0 ∧ i = j := by
  unfold decodeId
  split_ifs <;> simp_all

theorem decodeIdArg_eq_ok {sel : BitVec 8} {i j : Instr} : decodeIdArg sel i = .ok j ↔ sel = 0 ∧ i = j := by
  unfold decodeIdArg
  split_ifs <;> simp_all

theorem ofSel_eq_some {b : BitVec 8} {r : Reg} : Reg.ofSel b = some r ↔ r.sel = b :=
  ⟨sel_of_ofSel, fun h => h ▸ ofSel_sel r⟩

theorem decodeRdreg_eq_ok {n : Nat} {sel : BitVec 8} {arg : Arg} {j : Instr} :
    decodeRdreg n sel arg = .ok j ↔ arg = 0 ∧ ∃ r : Reg, r.sel = sel ∧ .rdreg n r = j := by
  unfold decodeRdreg
  split_ifs with harg
  · exact ⟨nofun, fun ⟨h, _⟩ => absurd h harg⟩
  · rw [and_iff_right (not_not.1 harg)]
    cases hr : Reg.ofSel sel with
    | none => simp [← ofSel_eq_some, hr]
    | some r => simp [← ofSel_eq_some, hr]

/-- The operands decode to the command with that code and those operands, and to no other (30_encoding.md R72). -/
theorem decodeOperands_eq_ok {op : Opcode} {n : Nat} {sel : BitVec 8} {arg : Arg} {i : Instr} :
    decodeOperands op n sel arg = .ok i ↔ i.opcode = op ∧ i.id = n ∧ i.selBits = sel ∧ i.argBits = arg := by
  constructor
  · intro h
    cases op with
    | edge | read | setwm =>
      obtain ⟨rfl, rfl⟩ := decodeIdArg_eq_ok.1 h
      exact ⟨rfl, rfl, rfl, rfl⟩
    | ovf | openCh | close | clear | chreset =>
      obtain ⟨rfl, rfl, rfl⟩ := decodeId_eq_ok.1 h
      exact ⟨rfl, rfl, rfl, rfl⟩
    | rdreg =>
      obtain ⟨rfl, r, rfl, rfl⟩ := decodeRdreg_eq_ok.1 h
      exact ⟨rfl, rfl, rfl, rfl⟩
  · rintro ⟨rfl, rfl, rfl, rfl⟩
    cases i with
    | edge | read | setwm => exact decodeIdArg_eq_ok.2 ⟨rfl, rfl⟩
    | ovf | openCh | close | clear | chreset => exact decodeId_eq_ok.2 ⟨rfl, rfl, rfl⟩
    | rdreg n r => exact decodeRdreg_eq_ok.2 ⟨rfl, r, rfl, rfl⟩

theorem ofBits_eq_some {b : BitVec 4} {op : Opcode} : Opcode.ofBits b = some op ↔ op.bits = b :=
  ⟨bits_of_ofBits, fun h => h ▸ ofBits_bits op⟩

/-- A word decodes to a command exactly when its fields are the command's and both reserved fields are 0
(30_encoding.md R70 to R73, R79). -/
theorem decode_eq_ok {w : Word} {i : Instr} :
    decode w = .ok i ↔ opField w = i.opcode.bits ∧ rsv1Field w = 0 ∧ rsv2Field w = 0
      ∧ (idField w).toNat = i.id ∧ selField w = i.selBits ∧ argField w = i.argBits := by
  unfold decode
  cases hop : Opcode.ofBits (opField w) with
  | none =>
    have hne : opField w ≠ i.opcode.bits := fun h => by simp [h, ofBits_bits] at hop
    exact ⟨nofun, fun ⟨h, _⟩ => absurd h hne⟩
  | some op =>
    have hcode : i.opcode = op ↔ opField w = i.opcode.bits := by
      rw [eq_comm (a := opField w), ← ofBits_eq_some, hop, Option.some_inj, eq_comm]
    simp only []
    split_ifs with h1 h2
    · exact ⟨nofun, fun ⟨_, h, _⟩ => absurd h h1⟩
    · exact ⟨nofun, fun ⟨_, _, h, _⟩ => absurd h h2⟩
    · rw [decodeOperands_eq_ok, hcode, and_iff_right (not_not.1 h1), and_iff_right (not_not.1 h2),
        eq_comm (a := i.id), eq_comm (a := i.selBits), eq_comm (a := i.argBits)]

/-- Settles O1: the word of a command has the command's own fields. -/
theorem decodeEncodeRoundTrip : Obligations.DecodeEncodeRoundTrip := by
  intro i hwf
  obtain ⟨hop, hrsv1, hid, hsel, hrsv2, harg⟩ :=
    packWord_fields i.opcode.bits (BitVec.ofNat 8 i.id) i.selBits i.argBits
  exact decode_eq_ok.2 ⟨hop, hrsv1, hrsv2, (congrArg BitVec.toNat hid).trans (ofNat_id_toNat hwf), hsel, harg⟩

/-- Settles O2: an 8-bit ID fits its field, and the word and the command's own word have the same fields. -/
theorem encodeDecodeRoundTrip : Obligations.EncodeDecodeRoundTrip := by
  intro w i h
  obtain ⟨hop, hrsv1, hrsv2, hid, hsel, harg⟩ := decode_eq_ok.1 h
  obtain ⟨hop', hrsv1', hid', hsel', hrsv2', harg'⟩ :=
    packWord_fields i.opcode.bits (BitVec.ofNat 8 i.id) i.selBits i.argBits
  have hfield : BitVec.ofNat 8 i.id = idField w := by rw [← hid, BitVec.ofNat_toNat, BitVec.setWidth_eq]
  exact ⟨i.wf_iff.2 (hid ▸ (idField w).isLt),
    eq_of_fields_eq (hop'.trans hop.symm) (hrsv1'.trans hrsv1.symm) (hid'.trans hfield) (hsel'.trans hsel.symm)
      (hrsv2'.trans hrsv2.symm) (harg'.trans harg.symm)⟩

/-! ### The match and mask rows (30_encoding.md R73) -/

/-- Masking a word masks each of its fields. -/
theorem and_eq_iff_fields {w m v : Word} : w &&& m = v ↔
    opField w &&& opField m = opField v ∧ rsv1Field w &&& rsv1Field m = rsv1Field v
      ∧ idField w &&& idField m = idField v ∧ selField w &&& selField m = selField v
      ∧ rsv2Field w &&& rsv2Field m = rsv2Field v ∧ argField w &&& argField m = argField v := by
  have hand {k n : Nat} : w.extractLsb' k n &&& m.extractLsb' k n = (w &&& m).extractLsb' k n :=
    BitVec.extractLsb'_and.symm
  refine ⟨?_, fun ⟨hop, hrsv1, hid, hsel, hrsv2, harg⟩ => ?_⟩
  · rintro rfl
    exact ⟨hand, hand, hand, hand, hand, hand⟩
  · exact eq_of_fields_eq (hand.symm.trans hop) (hand.symm.trans hrsv1) (hand.symm.trans hid)
      (hand.symm.trans hsel) (hand.symm.trans hrsv2) (hand.symm.trans harg)

/-- Does the code have an ARG operand (30_encoding.md R72)? -/
def Opcode.takesArg : Opcode → Bool
  | .edge | .read | .setwm => true
  | .ovf | .openCh | .close | .clear | .rdreg | .chreset => false

/-- The bits of SEL that the row of a code fixes: all of them but for RDREG. -/
def Opcode.selMask (op : Opcode) : BitVec 8 := if op = .rdreg then 0 else BitVec.allOnes 8

/-- The bits of ARG that the row of a code fixes: all of them where ARG is no operand. -/
def Opcode.argMask (op : Opcode) : Arg := if op.takesArg then 0 else BitVec.allOnes 32

/-- The fields of a row's match and mask, read off the table. -/
theorem opcodeRows_fields : ∀ r ∈ opcodeRows, r.mtch = packWord r.op.bits 0 0 0
    ∧ opField r.mask = BitVec.allOnes 4 ∧ rsv1Field r.mask = BitVec.allOnes 4 ∧ idField r.mask = 0
    ∧ selField r.mask = r.op.selMask ∧ rsv2Field r.mask = BitVec.allOnes 8 ∧ argField r.mask = r.op.argMask := by
  decide

/-- The word has the code's OP and 0 in every field that the code does not use (30_encoding.md R73). -/
def MeetsRow (op : Opcode) (w : Word) : Prop :=
  opField w = op.bits ∧ rsv1Field w = 0 ∧ rsv2Field w = 0 ∧ (op ≠ .rdreg → selField w = 0)
    ∧ (op.takesArg = false → argField w = 0)

theorem and_selMask_eq_zero_iff (op : Opcode) (b : BitVec 8) : b &&& op.selMask = 0 ↔ (op ≠ .rdreg → b = 0) := by
  unfold Opcode.selMask
  split_ifs with h
  · exact iff_of_true BitVec.and_zero fun hne => absurd h hne
  · rw [BitVec.and_allOnes, forall_prop_of_true h]

theorem and_argMask_eq_zero_iff (op : Opcode) (a : Arg) : a &&& op.argMask = 0 ↔ (op.takesArg = false → a = 0) := by
  unfold Opcode.argMask
  split_ifs with h
  · exact iff_of_true BitVec.and_zero fun hf => absurd (hf ▸ h) nofun
  · rw [BitVec.and_allOnes, forall_prop_of_true (Bool.eq_false_iff.2 h)]

/-- Meeting a row's match and mask says of the fields what `MeetsRow` says. -/
theorem and_mask_eq_mtch_iff {r : OpcodeRow} (hr : r ∈ opcodeRows) (w : Word) :
    w &&& r.mask = r.mtch ↔ MeetsRow r.op w := by
  obtain ⟨hmtch, hop, hrsv1, hid, hsel, hrsv2, harg⟩ := opcodeRows_fields r hr
  obtain ⟨hop', hrsv1', hid', hsel', hrsv2', harg'⟩ := packWord_fields r.op.bits 0 0 0
  rw [and_eq_iff_fields, hmtch, hop, hrsv1, hid, hsel, hrsv2, harg, hop', hrsv1', hid', hsel', hrsv2', harg',
    and_selMask_eq_zero_iff, and_argMask_eq_zero_iff]
  have hid0 : idField w &&& 0 = 0 := BitVec.and_zero
  simp only [BitVec.and_allOnes, hid0, true_and, MeetsRow]
  tauto

/-- Every code has its row. -/
theorem exists_row (op : Opcode) : ∃ r ∈ opcodeRows, r.op = op := by cases op <;> decide

/-! ### The words that decode (30_encoding.md R73, R81) -/

/-- Every register. -/
def allRegs : List Reg := [.chStatus, .chLast, .chOvf, .chBind, .chSnap, .qOcc, .qWm, .qDrop, .qCap, .tmrTrk, .tmrMod]

/-- The eleven legal SEL values are the registers' numbers (10_state.md R32). -/
theorem mem_sels_iff (b : BitVec 8) :
    b.toNat ∈ [0x00, 0x01, 0x02, 0x03, 0x04, 0x10, 0x11, 0x12, 0x13, 0x20, 0x21] ↔ ∃ r : Reg, r.sel = b := by
  have hall (r : Reg) : r ∈ allRegs := by cases r <;> decide
  rw [show [0x00, 0x01, 0x02, 0x03, 0x04, 0x10, 0x11, 0x12, 0x13, 0x20, 0x21] = allRegs.map (·.sel.toNat) from rfl]
  simp [hall, BitVec.toNat_inj]

/-- The operands that some command of a code has. -/
theorem exists_operands_iff (op : Opcode) (n : Nat) (sel : BitVec 8) (arg : Arg) :
    (∃ i : Instr, i.opcode = op ∧ i.id = n ∧ i.selBits = sel ∧ i.argBits = arg) ↔
      (op ≠ .rdreg → sel = 0) ∧ (op.takesArg = false → arg = 0) ∧ (op = .rdreg → ∃ r : Reg, r.sel = sel) := by
  constructor
  · rintro ⟨i, rfl, rfl, rfl, rfl⟩
    cases i with
    | rdreg n r => exact ⟨fun h => absurd rfl h, fun _ => rfl, fun _ => ⟨r, rfl⟩⟩
    | edge | read | setwm => exact ⟨fun _ => rfl, nofun, nofun⟩
    | ovf | openCh | close | clear | chreset => exact ⟨fun _ => rfl, fun _ => rfl, nofun⟩
  · rintro ⟨hsel, harg, hreg⟩
    cases op with
    | edge => exact ⟨.edge n arg, rfl, rfl, (hsel nofun).symm, rfl⟩
    | ovf => exact ⟨.ovf n, rfl, rfl, (hsel nofun).symm, (harg rfl).symm⟩
    | openCh => exact ⟨.openCh n, rfl, rfl, (hsel nofun).symm, (harg rfl).symm⟩
    | close => exact ⟨.close n, rfl, rfl, (hsel nofun).symm, (harg rfl).symm⟩
    | read => exact ⟨.read n arg, rfl, rfl, (hsel nofun).symm, rfl⟩
    | clear => exact ⟨.clear n, rfl, rfl, (hsel nofun).symm, (harg rfl).symm⟩
    | setwm => exact ⟨.setwm n arg, rfl, rfl, (hsel nofun).symm, rfl⟩
    | rdreg =>
      obtain ⟨r, hr⟩ := hreg rfl
      exact ⟨.rdreg n r, rfl, rfl, hr, (harg rfl).symm⟩
    | chreset => exact ⟨.chreset n, rfl, rfl, (hsel nofun).symm, (harg rfl).symm⟩

/-- A word decodes to a command of a code exactly when it meets the code's row and, for RDREG, names a register. -/
theorem decodes_to_opcode_iff (w : Word) (op : Opcode) : (∃ i, decode w = .ok i ∧ i.opcode = op) ↔
    MeetsRow op w ∧ (op = .rdreg → ∃ r : Reg, r.sel = selField w) := by
  have hoperands := exists_operands_iff op (idField w).toNat (selField w) (argField w)
  constructor
  · rintro ⟨i, hdec, rfl⟩
    obtain ⟨hop, hrsv1, hrsv2, hid, hsel, harg⟩ := decode_eq_ok.1 hdec
    obtain ⟨hsel0, harg0, hreg⟩ := hoperands.1 ⟨i, rfl, hid.symm, hsel.symm, harg.symm⟩
    exact ⟨⟨hop, hrsv1, hrsv2, hsel0, harg0⟩, hreg⟩
  · rintro ⟨⟨hop, hrsv1, hrsv2, hsel0, harg0⟩, hreg⟩
    obtain ⟨i, rfl, hid, hsel, harg⟩ := hoperands.2 ⟨hsel0, harg0, hreg⟩
    exact ⟨i, decode_eq_ok.2 ⟨hop, hrsv1, hrsv2, hid.symm, hsel.symm, harg.symm⟩, rfl⟩

/-- Settles O3: a row's match and mask are what `MeetsRow` says of the fields, and no two rows have one OP. -/
theorem decodesExactlyOnAnOpcodeRow : Obligations.DecodesExactlyOnAnOpcodeRow := by
  refine ⟨fun w op => ?_, fun w => ?_⟩
  · rw [decodes_to_opcode_iff, mem_sels_iff]
    constructor
    · rintro ⟨hmeets, hreg⟩
      obtain ⟨r, hr, rfl⟩ := exists_row op
      exact ⟨r, hr, rfl, (and_mask_eq_mtch_iff hr w).2 hmeets, hreg⟩
    · rintro ⟨r, hr, rfl, hmeets, hreg⟩
      exact ⟨(and_mask_eq_mtch_iff hr w).1 hmeets, hreg⟩
  · have hbits : opcodeRows.Pairwise fun a b => a.op.bits ≠ b.op.bits := by decide
    refine hbits.imp_of_mem fun ha hb hne ⟨hwa, hwb⟩ => hne ?_
    exact ((and_mask_eq_mtch_iff ha w).1 hwa).1.symm.trans ((and_mask_eq_mtch_iff hb w).1 hwb).1

/-! ### The illegal words (30_encoding.md R80 to R82) -/

/-- The reserved OP values are those that are no code's number (30_encoding.md R80). -/
theorem reservedOp_iff (b : BitVec 4) : (b.toNat < 0x1 ∨ 0x9 < b.toNat) ↔ ¬ ∃ op : Opcode, op.bits = b := by
  simp only [← ofBits_eq_some, ← Option.isSome_iff_exists]
  revert b
  decide

theorem bits_inj {op op' : Opcode} : op.bits = op'.bits ↔ op = op' := by
  rw [← ofBits_eq_some, ofBits_bits, Option.some_inj, eq_comm]

theorem bits_eq_rdreg_iff (op : Opcode) : op.bits.toNat = 0x8 ↔ op = .rdreg := by cases op <;> decide

theorem bits_takesArg_iff (op : Opcode) :
    op.takesArg = false ↔ op.bits.toNat ≠ 0x1 ∧ op.bits.toNat ≠ 0x5 ∧ op.bits.toNat ≠ 0x7 := by
  cases op <;> decide

/-- Of the rows, a word can meet that of its own OP alone. -/
theorem exists_meetsRow_iff {op : Opcode} {w : Word} (h : op.bits = opField w) (P : Opcode → Prop) :
    (∃ op', MeetsRow op' w ∧ P op') ↔ MeetsRow op w ∧ P op := by
  refine ⟨fun ⟨op', hmeets, hp⟩ => ?_, fun hop => ⟨op, hop⟩⟩
  obtain rfl : op = op' := bits_inj.1 (h.trans hmeets.1)
  exact ⟨hmeets, hp⟩

/-- An illegal word is one that meets no row, or RDREG's with a reserved SEL. -/
theorem illegalWord_iff (w : Word) : Machine.IllegalWord w ↔
    ¬ ∃ op, MeetsRow op w ∧ (op = .rdreg → ∃ r : Reg, r.sel = selField w) := by
  unfold Machine.IllegalWord
  rw [reservedOp_iff, mem_sels_iff]
  by_cases hop : ∃ op : Opcode, op.bits = opField w
  · obtain ⟨op, hbits⟩ := hop
    have hrdreg : op = .rdreg ↔ (opField w).toNat = 0x8 := by rw [← bits_eq_rdreg_iff, hbits]
    have hlegal : ¬ ¬ ∃ op : Opcode, op.bits = opField w := not_not.2 ⟨op, hbits⟩
    rw [exists_meetsRow_iff hbits, or_iff_right hlegal]
    simp only [MeetsRow, ne_eq, hrdreg, bits_takesArg_iff, hbits, true_and]
    tauto
  · exact iff_of_true (.inl hop) fun ⟨op, ⟨h, _⟩, _⟩ => hop ⟨op, h.symm⟩

theorem exists_decode_error_iff (w : Word) : (∃ e, decode w = .error e) ↔ ¬ ∃ i, decode w = .ok i := by
  cases decode w <;> simp

/-- Settles O4: a word is illegal exactly when no command decodes from it. -/
theorem rejectsExactlyTheIllegalWords : Obligations.RejectsExactlyTheIllegalWords := by
  intro w
  rw [exists_decode_error_iff, illegalWord_iff, not_iff_not]
  simp only [← decodes_to_opcode_iff]
  exact ⟨fun ⟨i, hi⟩ => ⟨i.opcode, i, hi, rfl⟩, fun ⟨_, i, hi, _⟩ => ⟨i, hi⟩⟩

/-! ### The words of the commands (30_encoding.md R85, R86, R87) -/

theorem encode_toNat {i : Instr} (h : i.wf = true) : (encode i).toNat =
    i.opcode.bits.toNat * 2 ^ 60 + i.id * 2 ^ 48 + i.selBits.toNat * 2 ^ 40 + i.argBits.toNat := by
  rw [encode, packWord_toNat, ofNat_id_toNat h]

theorem sel_toNat (r : Reg) : r.sel.toNat = Machine.selNumber r := by cases r <;> rfl

/-- Settles O5: each form adds up the command's fields, those it does not use being 0. -/
theorem encodingIsTheAssemblerForm : Obligations.EncodingIsTheAssemblerForm := by
  intro n hn a r
  have hform (i : Instr) (hi : i.id = n) : (encode i).toNat =
      i.opcode.bits.toNat * 2 ^ 60 + n * 2 ^ 48 + i.selBits.toNat * 2 ^ 40 + i.argBits.toNat := by
    rw [encode_toNat (i.wf_iff.2 (hi ▸ hn)), hi]
  refine ⟨?_, ?_, ?_, ?_, ?_, ?_, ?_, ?_, ?_⟩ <;>
    rw [hform] <;> simp [Instr.id, Instr.opcode, Opcode.bits, Instr.selBits, Instr.argBits, sel_toNat]

/-- Settles O6: the decoder evaluated on the nine words of R87. -/
theorem workedEncodingsDecode : Obligations.WorkedEncodingsDecode := by
  refine ⟨?_, ?_, ?_, ?_, ?_, ?_, ?_, ?_, ?_⟩ <;> rfl

end Sys2Proof

/-! The statements about what a word's execution gives: the illegal words, DRAIN, the environment's draw and the sample
word (30_encoding.md R74 to R86). -/

namespace Sys2Proof.Machine

/-! ### Illegal words and DRAIN -/

/-- Settles O8: an illegal word does not decode, and taking it raises ERR_ILLEGAL. -/
theorem illegalWordAnswersErrIllegal : Obligations.IllegalWordAnswersErrIllegal := by
  intro s w draw rest hin
  have hiff := rejectsExactlyTheIllegalWords w
  refine ⟨fun hill => ?_, fun hleg => ?_⟩
  · obtain ⟨e, he⟩ := hiff.2 hill
    rw [step_of_inputs hin]
    simp [takeEvent, takeCommand, he, State.emitOutput]
  · rw [← hiff, exists_decode_error_iff, not_not] at hleg
    exact hleg

/-- A READ of a channel in range removes and answers `readCount` samples (42_sample_queue.md R155). -/
theorem exec_read {s : State} {c : Nat} (hc : c < s.cfg.numCh) (max : Arg) : exec (.read c max) s =
    respond .ok (s.readData (s.cfg.qOf c) (s.readCount (s.cfg.qOf c) max)) none
      (dequeue (s.cfg.qOf c) (s.readCount (s.cfg.qOf c) max) s) := by
  simp [exec, execRead, State.validChan, hc]

/-- The largest `max` limits no READ, because CAP is below 2^32 (30_encoding.md R86). -/
theorem readCount_max {s : State} (h : s.Inv) {k : Nat} (hk : k < s.cfg.numQ) :
    s.readCount k 0xFFFFFFFF = (s.queue k).occ := by
  have hocc := (h.queueInv k hk).occLe
  have hcap := (Cfg.wf_cap h.cfgWf hk).2
  exact Nat.min_eq_right (hocc.trans hcap)

/-- Settles O22: the word is READ's own, and its count is the occupancy, which CAP keeps below 2^32. -/
theorem drainEmptiesTheQueue : Obligations.DrainEmptiesTheQueue := by
  refine ⟨fun c hc => ?_, fun s c hs hc => ?_⟩
  · have hwf : (Instr.read c 0xFFFFFFFF).wf = true := (Instr.wf_iff _).2 hc
    obtain ⟨-, -, -, -, hword, -⟩ := encodingIsTheAssemblerForm c hc 0xFFFFFFFF .chStatus
    have henc : BitVec.ofNat 64 (0x5 * 2 ^ 60 + c * 2 ^ 48 + 0xFFFFFFFF) = encode (.read c 0xFFFFFFFF) := by
      rw [← BitVec.setWidth_eq (encode _), ← BitVec.ofNat_toNat, hword]
      rfl
    exact henc ▸ decodeEncodeRoundTrip _ hwf
  · have hexec := exec_read hc 0xFFFFFFFF
    rw [readCount_max hs (hs.q_lt hc), readData_eq le_rfl, List.take_of_length_le (by simp)] at hexec
    refine ⟨_, ⟨hexec, rfl, rfl, rfl, rfl, rfl⟩, ?_⟩
    rw [State.emitOutput_content, dequeue_content (hs.queue_lt hc), List.drop_of_length_le (by simp)]

/-! ### The environment's draw (30_encoding.md R74) -/

/-- The state with the environment's draw `b`. -/
def withDraw (b : Bool) (s : State) : State := { s with initOk := b }

/-- When the one answer is a next state, the other is that state with the draw `b`. -/
def AnswersWithDraw (b : Bool) (r r' : Result) : Prop := ∀ t, r = .next t → r' = .next (withDraw b t)

/-- Both answers take the same branch, on a condition that does not read the draw. -/
theorem AnswersWithDraw.ite {b p : Bool} {x y x' y' : Result} (hx : AnswersWithDraw b x x')
    (hy : AnswersWithDraw b y y') : AnswersWithDraw b (if p then x else y) (if p then x' else y') := by
  cases p <;> assumption

theorem AnswersWithDraw.respond {b : Bool} {s s' : State} (h : s' = withDraw b s) (st : Status) (d : List Word)
    (n : Option Nat) : AnswersWithDraw b (respond st d n s) (respond st d n s') := by
  rintro t ⟨⟩
  exact h ▸ rfl

theorem AnswersWithDraw.raise (b : Bool) (s : State) (st : Status) :
    AnswersWithDraw b (raise st s) (raise st (withDraw b s)) := .respond rfl st [] none

theorem resetTally_withDraw (c : Nat) (b : Bool) (s : State) :
    resetTally c (withDraw b s) = withDraw b (resetTally c s) := by
  cases h : s.cfg.ovfMode with
  | snapshot => rw [resetTally_snapshot (s := withDraw b s) h, resetTally_snapshot h]; rfl
  | sharedReset => rw [resetTally_sharedReset (s := withDraw b s) h, resetTally_sharedReset h]; rfl

theorem pushState_withDraw (k : Nat) (x : Sample) (b : Bool) (s : State) :
    pushState k x (withDraw b s) = withDraw b (pushState k x s) := by
  by_cases h : (s.queue k).occ = s.cfg.capOf k
  · rw [pushState_full (s := withDraw b s) h, pushState_full h]; rfl
  · rw [pushState_notFull (s := withDraw b s) h, pushState_notFull h]; rfl

theorem edgeActive_withDraw (c : Nat) (raw : Arg) (b : Bool) (s : State) :
    AnswersWithDraw b (edgeActive c raw s) (edgeActive c raw (withDraw b s)) := by
  have hpush := pushState_withDraw (s.cfg.qOf c) (s.edgeSample c raw) b s
  have hchan := congrArg (fun u => resetTally c (u.setChan c ((s.chan c).toggled raw))) hpush
  exact .respond (hchan.trans (resetTally_withDraw c b (State.setChan _ c ((s.chan c).toggled raw)))) _ _ _

/-- Every command but OPEN takes the same branch with any draw, and writes the same. -/
theorem exec_withDraw {i : Instr} (hi : ∀ c, i ≠ .openCh c) (b : Bool) (s : State) :
    AnswersWithDraw b (exec i s) (exec i (withDraw b s)) := by
  have hraise := AnswersWithDraw.raise b s
  cases i with
  | openCh c => exact absurd rfl (hi c)
  | edge c raw =>
    refine .ite (hraise _) (.ite (hraise _) (.ite (hraise _) (.ite ?_ (edgeActive_withDraw c raw b s))))
    exact .respond (resetTally_withDraw c b (s.setChan c ((s.chan c).started raw))) _ _ _
  | chreset c => exact .ite (hraise _) (.respond (resetTally_withDraw c b (s.setChan c (s.chan c).idled)) _ _ _)
  | ovf | close | read | clear | setwm | rdreg => exact .ite (hraise _) (.respond rfl _ _ _)

/-- Settles O36: no branch but OPEN's reads the draw. -/
theorem drawIsReadByOpenAlone : Obligations.DrawIsReadByOpenAlone :=
  fun s t _ draw hi h => exec_withDraw hi draw s t h

/-! ### The sample word (30_encoding.md R76) -/

theorem sampleWord_toNat (x : Sample) : (sampleWord x).toNat = x.lvl.toNat * 2 ^ 32 + x.dur.toNat := by
  simp only [sampleWord, toNat_append_add, BitVec.toNat_ofNat, BitVec.toNat_ofBool]
  omega

/-- Settles O29: the word is the level times 2^32 plus the duration. -/
theorem sampleWordLayout : Obligations.SampleWordLayout := by
  intro x
  have hdur := x.dur.isLt
  have hlvl := x.lvl.toNat_le
  have hword := sampleWord_toNat x
  have hlow : (sampleWord x).toNat % 2 ^ 32 = x.dur.toNat := by omega
  refine ⟨?_, ?_, ?_, fun n hn hlt => ⟨?_, ?_⟩⟩
  · exact BitVec.eq_of_toNat_eq (by simpa using hlow)
  · have hbit : (sampleWord x).toNat / 2 ^ 32 = x.lvl.toNat := by omega
    rw [BitVec.getLsbD, Nat.testBit_eq_decide_div_mod_eq, hbit]
    cases x.lvl <;> rfl
  · have hhigh : (sampleWord x).toNat / 2 ^ 33 = 0 := by omega
    apply BitVec.eq_of_toNat_eq
    rw [BitVec.extractLsb'_toNat, Nat.shiftRight_eq_div_pow, hhigh]
    rfl
  · rw [← Nat.mod_mod_of_dvd _ (Nat.pow_dvd_pow 2 hn), hlow, Nat.mod_eq_of_lt hlt]
  · rwa [hlow]

end Sys2Proof.Machine

/-! The statements about the capture channel: ResetTally, EDGE in IDLE and in ACTIVE, CHRESET, and a run of edges
(40_capture_channel.md R100 to R113). -/

namespace Sys2Proof.Machine

/-! ### ResetTally (40_capture_channel.md R100) -/

/-- The tally is 0 right after ResetTally, in either mode. -/
theorem resetTally_tally_self {s : State} {c : Nat} (hc : c < s.ch.length) (ht : s.cfg.tmrOf c < s.trk.length) :
    (resetTally c s).tally c = 0 := by
  cases hm : s.cfg.ovfMode with
  | snapshot =>
    rw [resetTally_snapshot hm, tally_snapshot (by exact hm), State.chan_setChan_self hc]
    simp
  | sharedReset =>
    rw [resetTally_sharedReset hm, tally_sharedReset (by exact hm)]
    exact congrArg BitVec.toNat (State.trkAt_setTrk_self ht)

theorem tallyReset_resetTally {s : State} {c : Nat} (hc : c < s.ch.length) (ht : s.cfg.tmrOf c < s.trk.length) :
    TallyReset c s (resetTally c s) where
  snapshot hm := by
    rw [resetTally_snapshot hm]
    exact ⟨rfl, congrArg Channel.snap (State.chan_setChan_self hc)⟩
  shared hm := by
    rw [resetTally_sharedReset hm]
    exact ⟨State.trkAt_setTrk_self ht, fun _ hne => State.trkAt_setTrk_of_ne hne, rfl⟩
  zero := resetTally_tally_self hc ht

/-- Settles O18: the law of ResetTally at the indices of a legal state. -/
theorem resetTallyZeroesTheTally : Obligations.ResetTallyZeroesTheTally := fun _ c hs hc =>
  ⟨tallyReset_resetTally (hs.chan_lt hc) (hs.trk_lt hc), fun _ hne => resetTally_chan_of_ne hne, resetTally_q c _⟩

/-- What ResetTally is said to do depends on the configuration, the trackers and the channel's snapshot alone. -/
theorem TallyReset.congr {s s' t : State} {c : Nat} (h : TallyReset c s' t) (hg : s'.cfg = s.cfg)
    (ht : s'.trk = s.trk) (hsnap : (s'.chan c).snap = (s.chan c).snap) : TallyReset c s t := by
  have hat : ∀ tm, s'.trkAt tm = s.trkAt tm := fun tm => by simp [State.trkAt, ht]
  refine ⟨fun hm => ?_, fun hm => ?_, h.zero⟩
  · simpa only [hg, ht, hat] using h.snapshot (hg ▸ hm)
  · simpa only [hg, KeepsOtherTrackers, hat, hsnap] using h.shared (hg ▸ hm)

/-! ### Writing a channel's record and resetting its tally -/

/-- Channel `c` has the record `x` but for its snapshot, its tally was reset, and no other channel was written: what
EDGE and CHRESET do to the channels and trackers. -/
structure ChannelWritten (c : Nat) (x : Channel) (s t : State) : Prop where
  last   : (t.chan c).last = x.last
  level  : (t.chan c).level = x.level
  prior  : (t.chan c).prior = x.prior
  armed  : (t.chan c).armed = x.armed
  tally  : TallyReset c s t
  others : KeepsOtherChannels c s t

/-- Writing the record and then ResetTally, on a state `u` in which at most queues differ from `s`. -/
theorem channelWritten_resetTally {s u : State} {c : Nat} {x : Channel} (hs : s.Inv) (hc : c < s.cfg.numCh)
    (hg : u.cfg = s.cfg) (hch : u.ch = s.ch) (ht : u.trk = s.trk) (hsnap : x.snap = (s.chan c).snap) (o : StepOutput) :
    ChannelWritten c x s ((resetTally c (u.setChan c x)).emitOutput o) := by
  have hlen : c < u.ch.length := hch ▸ hs.chan_lt hc
  have hw := State.chan_setChan_self (x := x) hlen
  have hchan := resetTally_chan_self (s := u.setChan c x) (by simpa using hlen)
  rw [hw] at hchan
  have hreset : TallyReset c (u.setChan c x) (resetTally c (u.setChan c x)) :=
    tallyReset_resetTally (by simpa using hlen) (by simpa [hg, ht] using hs.trk_lt hc)
  obtain ⟨hsnapshot, hshared, hzero⟩ := hreset.congr (s := s) hg ht (by rw [hw, hsnap])
  refine ⟨?_, ?_, ?_, ?_, ⟨hsnapshot, hshared, hzero⟩, fun c' hne => ?_⟩
  · exact (congrArg Channel.last hchan :)
  · exact (congrArg Channel.level hchan :)
  · exact (congrArg Channel.prior hchan :)
  · exact (congrArg Channel.armed hchan :)
  · rw [State.emitOutput_chan, resetTally_chan_of_ne hne, State.chan_setChan_of_ne hne]
    simp [State.chan, hch]

/-! ### Completing a command -/

/-- A command that ends with the output `o` completes with it. -/
theorem completes_of_exec {i : Instr} {s u : State} {o : StepOutput} (h : exec i s = .next (u.emitOutput o)) :
    Completes i s o (u.emitOutput o) := by
  obtain ⟨u', o', h', hkeep⟩ := exec_emits i s
  have he := next_inj (h'.symm.trans h)
  obtain ⟨-, ho⟩ := List.append_inj' (congrArg State.outputs he) rfl
  obtain rfl : o' = o := by simpa using ho
  exact ⟨h, he ▸ congrArg (· ++ [o']) hkeep.outputs, he ▸ hkeep.cfg, he ▸ hkeep.epoch, he ▸ hkeep.initOk,
    he ▸ hkeep.inputs⟩

/-- A CHRESET of a channel in range idles its record and resets its tally (40_capture_channel.md R110). -/
theorem exec_chreset {s : State} {c : Nat} (hc : c < s.cfg.numCh) :
    exec (.chreset c) s = .next ((resetTally c (s.setChan c (s.chan c).idled)).emitOutput ⟨.ok, [], none⟩) := by
  simp [exec, execChreset, State.validChan, hc]

/-- Settles O19: out of range CHRESET raises, in range it writes the idle record and resets the tally. -/
theorem chresetReturnsToIdle : Obligations.ChresetReturnsToIdle := by
  intro s c hs
  refine ⟨fun hc => ?_, fun hc => ?_⟩
  · simp [Raises, exec, execChreset, State.validChan, Nat.not_lt.2 hc]
  · have hw := channelWritten_resetTally (u := s) (x := (s.chan c).idled) hs hc rfl rfl rfl rfl ⟨.ok, [], none⟩
    exact ⟨_, completes_of_exec (exec_chreset hc), hw.last, hw.level, hw.prior, hw.armed, hw.tally, hw.others,
      by simp, fun k i => by simp⟩

/-! ### EDGE in IDLE (40_capture_channel.md R101) -/

/-- Settles O13: the IDLE branch writes the started record and resets the tally. -/
theorem edgeInIdleStartsTheChannel : Obligations.EdgeInIdleStartsTheChannel := by
  intro s c raw hs hc ha hr hp
  have hw := channelWritten_resetTally (u := s) (x := (s.chan c).started raw) hs hc rfl rfl rfl rfl ⟨.ok, [], none⟩
  exact ⟨_, completes_of_exec (exec_edge_idle hc ha hr hp), hw.last, hw.level, hw.prior, hw.armed.trans ha, hw.tally,
    hw.others, by simp, fun k i => by simp⟩

/-! ### EDGE in ACTIVE (40_capture_channel.md R102 to R105) -/

/-- An accepted EDGE in ACTIVE with room in the queue (40_capture_channel.md R104). -/
theorem exec_edge_stored {s : State} {c : Nat} {raw : Arg} (hc : c < s.cfg.numCh) (ha : (s.chan c).armed = true)
    (hr : raw.toNat < s.cfg.modOf (s.cfg.tmrOf c)) (hp : (s.chan c).prior = true)
    (hf : (s.queue (s.cfg.qOf c)).occ < s.cfg.capOf (s.cfg.qOf c)) :
    exec (.edge c raw) s = .next ((resetTally c ((pushStore (s.cfg.qOf c) (s.edgeSample c raw) s).setChan c
      ((s.chan c).toggled raw))).emitOutput ⟨.ok, [], pushNotify (s.cfg.qOf c) s⟩) := by
  simp [exec_edge_active hc ha hr hp, edgeActive, pushState_notFull hf.ne, State.queueFull, hf.ne]

/-- An accepted EDGE in ACTIVE with the queue full (40_capture_channel.md R105). -/
theorem exec_edge_dropped {s : State} {c : Nat} {raw : Arg} (hc : c < s.cfg.numCh) (ha : (s.chan c).armed = true)
    (hr : raw.toNat < s.cfg.modOf (s.cfg.tmrOf c)) (hp : (s.chan c).prior = true)
    (hf : (s.queue (s.cfg.qOf c)).occ = s.cfg.capOf (s.cfg.qOf c)) :
    exec (.edge c raw) s = .next ((resetTally c ((pushDrop (s.cfg.qOf c) s).setChan c
      ((s.chan c).toggled raw))).emitOutput ⟨.dropped, [], none⟩) := by
  simp [exec_edge_active hc ha hr hp, edgeActive, pushState_full hf, pushNotify, State.queueFull, hf]

/-- With room in the queue, PUSH notifies exactly when the watermark is the new occupancy (42_sample_queue.md R153). -/
theorem pushNotify_of_room {s : State} {k : Nat} (hf : (s.queue k).occ < s.cfg.capOf k) :
    pushNotify k s = if (s.queue k).wm.toNat = (s.queue k).occ + 1 then some k else none := by
  have hcross : (s.queue k).crosses = true ↔ (s.queue k).wm.toNat = (s.queue k).occ + 1 := by
    simp only [Queue.crosses, Bool.and_eq_true, decide_eq_true_eq]
    omega
  simp [pushNotify, State.queueFull, hf.ne, hcross]

/-- Settles O14: the PUSH that succeeds stores the sample, and the channel is written as toggled. -/
theorem edgeInActiveStoresTheSample : Obligations.EdgeInActiveStoresTheSample := by
  rintro s c k raw hs hc ha hr hp rfl hf
  have hk := hs.queue_lt hc
  have hw := channelWritten_resetTally (u := pushStore (s.cfg.qOf c) (s.edgeSample c raw) s)
    (x := (s.chan c).toggled raw) hs hc rfl rfl rfl rfl ⟨.ok, [], pushNotify (s.cfg.qOf c) s⟩
  have hexec := completes_of_exec (exec_edge_stored hc ha hr hp hf)
  have hqueue := (congrArg (State.queue · (s.cfg.qOf c)) (pushStore_eq (x := s.edgeSample c raw) hk)).trans
    (State.queue_setQueue_self hk)
  refine ⟨_, s.edgeSample c raw, pushNotify_of_room hf ▸ hexec, duration_toNat hs c raw, rfl, ?_, ?_, ?_, ?_, ?_, ?_,
    ?_, ?_, hw.level, hw.last, hw.prior.trans hp, hw.armed.trans ha, hw.tally, hw.others⟩
  · simpa using pushStore_content hk hf
  · simpa using congrArg Queue.occ hqueue
  · simpa using congrArg Queue.rd hqueue
  · simpa using congrArg Queue.wm hqueue
  · simpa using congrArg Queue.drop hqueue
  · simpa using pushStore_memRead_tail hk
  · intro k' i hne
    simpa using pushStore_memRead_of_ne hne
  · intro k' hne
    simp [pushStore_eq hk, State.queue_setQueue_of_ne hne]

/-- Settles O15: the PUSH that fails writes `drop` alone, and the channel is written as toggled. -/
theorem edgeOnAFullQueueDropsTheSample : Obligations.EdgeOnAFullQueueDropsTheSample := by
  rintro s c k raw hs hc ha hr hp rfl hf
  have hk := hs.queue_lt hc
  have hw := channelWritten_resetTally (u := pushDrop (s.cfg.qOf c) s) (x := (s.chan c).toggled raw)
    hs hc rfl rfl rfl rfl ⟨.dropped, [], none⟩
  have hqueue : (pushDrop (s.cfg.qOf c) s).queue (s.cfg.qOf c) = _ := State.queue_setQueue_self hk
  have hcontent : (pushDrop (s.cfg.qOf c) s).content (s.cfg.qOf c) = s.content (s.cfg.qOf c) :=
    content_setQueue_of_same hk rfl rfl rfl
  have hslots : KeepsAllSlots s (pushDrop (s.cfg.qOf c) s) := memRead_setQueue_of_store rfl
  refine ⟨_, completes_of_exec (exec_edge_dropped hc ha hr hp hf), ?_, ?_, ?_, ?_, ?_, ?_, ?_,
    hw.level, hw.last, hw.prior.trans hp, hw.armed.trans ha, hw.tally, hw.others⟩
  · simp [hqueue, BitVec.toNat_add]
  · simpa using hcontent
  · simpa using congrArg Queue.occ hqueue
  · simpa using congrArg Queue.rd hqueue
  · simpa using congrArg Queue.wm hqueue
  · intro k' i
    simpa using hslots k' i
  · intro k' hne
    simp [pushDrop, State.queue_setQueue_of_ne hne]

/-! ### The corner durations (40_capture_channel.md R107) -/

/-- A duration is the residue of any number that the elapsed count is congruent to. -/
theorem dur_eq_mod_of_modEq {s : State} {c : Nat} {raw dur : Arg}
    (h : (dur.toNat : Int) = elapsedCount s c raw % (2 ^ s.cfg.wDur : Nat)) {n : Nat}
    (hn : elapsedCount s c raw ≡ n [ZMOD (2 ^ s.cfg.wDur : Nat)]) : dur.toNat = n % 2 ^ s.cfg.wDur := by
  exact_mod_cast h.trans hn

/-- Settles O16, by the residue of the elapsed count at each corner. -/
theorem edgeCornerDurations : Obligations.EdgeCornerDurations := by
  intro s c k raw hs hc ha hr hp hk hf
  obtain ⟨t, x, hcomp, hdur, -, hcontent, -⟩ := edgeInActiveStoresTheSample s c k raw hs hc ha hr hp hk hf
  have hmod {n : Nat} := dur_eq_mod_of_modEq hdur (n := n)
  have hzero (h : x.dur.toNat = 0 % 2 ^ s.cfg.wDur) : x.dur = 0 := BitVec.eq_of_toNat_eq (by simpa using h)
  refine ⟨t, x, hcomp.exec_eq, hcontent, fun hn hraw => ?_, fun hn hraw => ?_, fun hn hlt hle => ?_, fun hn hraw => ?_⟩
  · have he : elapsedCount s c raw = 0 := by simp [elapsedCount, hn, hraw]
    exact hzero (hmod (by simp [he]))
  · have he : elapsedCount s c raw = s.cfg.modOf (s.cfg.tmrOf c) := by simp [elapsedCount, hn, hraw]
    exact hmod (he ▸ Int.ModEq.refl _)
  · have he : ((2 ^ s.cfg.wDur - ((s.chan c).last.toNat - raw.toNat) : Nat) : Int)
        = elapsedCount s c raw + (2 ^ s.cfg.wDur : Nat) := by
      simp only [elapsedCount, hn]
      omega
    rw [hmod (n := 2 ^ s.cfg.wDur - ((s.chan c).last.toNat - raw.toNat)) (he ▸ by simp [Int.ModEq])]
    exact Nat.mod_eq_of_lt (by omega)
  · have he : elapsedCount s c raw = (2 ^ s.cfg.wDur : Nat) := by
      simp only [elapsedCount, hraw, ← hn]
      push_cast
      ring
    exact hzero (hmod (by simp [he, Int.ModEq]))

/-! ### The expected polarity (40_capture_channel.md R109) -/

/-- An accepted EDGE in ACTIVE writes the channel as toggled, whether or not PUSH succeeds (40_capture_channel.md
R105). -/
theorem exec_edge_active_written {s : State} {c : Nat} {raw : Arg} (hs : s.Inv) (hc : c < s.cfg.numCh)
    (ha : (s.chan c).armed = true) (hr : raw.toNat < s.cfg.modOf (s.cfg.tmrOf c)) (hp : (s.chan c).prior = true) :
    ∃ t, exec (.edge c raw) s = .next t ∧ ChannelWritten c ((s.chan c).toggled raw) s t :=
  ⟨_, exec_edge_active hc ha hr hp, channelWritten_resetTally (x := (s.chan c).toggled raw) hs hc (pushState_cfg _ _ s)
    (pushState_ch _ _ s) (pushState_trk _ _ s) rfl _⟩

/-- Settles O17: the IDLE branch starts LOW, the ACTIVE branch toggles, and `expect` is read off the new level. -/
theorem expectIsOppositeAfterEdge : Obligations.ExpectIsOppositeAfterEdge := by
  intro s c raw hs hc ha hr
  cases hp : (s.chan c).prior with
  | false =>
    obtain ⟨t, hcomp, -, hlevel, hprior, -⟩ := edgeInIdleStartsTheChannel s c raw hs hc ha hr hp
    exact ⟨t, hcomp.exec_eq, fun _ => by simp [Channel.expect, hprior, hlevel], nofun, nofun⟩
  | true =>
    obtain ⟨t, hexec, hw⟩ := exec_edge_active_written hs hc ha hr hp
    have hprior : (t.chan c).prior = true := hw.prior.trans hp
    have hlevel : (t.chan c).level = !(s.chan c).level := hw.level
    refine ⟨t, hexec, nofun, fun _ hl => ?_, fun _ hl => ?_⟩
    · simp [Channel.expect, hprior, hlevel, hl]
    · simp [Channel.expect, hprior, hlevel, hl]

/-! ### A run of edges (40_capture_channel.md R113) -/

/-- An overflow counted modulo `N` raises a difference from it by one, modulo `N`. -/
theorem toNat_emod_succ_sub (a b : Nat) {N : Nat} (hN : 0 < N) :
    ((((a + 1) % N : Nat) - b : Int) % N).toNat = (((a - b : Int) % N).toNat + 1) % N := by
  have hN' : (N : Int) ≠ 0 := by omega
  zify
  rw [Int.toNat_of_nonneg (Int.emod_nonneg _ hN'), Int.toNat_of_nonneg (Int.emod_nonneg _ hN'), Int.emod_sub_emod,
    Int.emod_add_emod]
  congr 1
  ring

/-- OVF of the channel's timer raises its tally by one, modulo 2^W_TRK, in either mode (41_overflow_tracker.md R130). -/
theorem tally_setTrk_trkIncr {s : State} {c : Nat} (hs : s.Inv) (hc : c < s.cfg.numCh) :
    (s.setTrk (s.cfg.tmrOf c) (trkIncr s.cfg.wTrk (s.trkAt (s.cfg.tmrOf c)))).tally c
      = (s.tally c + 1) % 2 ^ s.cfg.wTrk := by
  have hat := State.trkAt_setTrk_self (v := trkIncr s.cfg.wTrk (s.trkAt (s.cfg.tmrOf c))) (hs.trk_lt hc)
  have hincr := trkIncr_toNat (Cfg.wf_widths hs.cfgWf).2.2 (s.trkAt (s.cfg.tmrOf c))
  cases hm : s.cfg.ovfMode with
  | snapshot =>
    rw [tally_snapshot (by exact hm), tally_snapshot hm, State.setTrk_cfg, State.setTrk_chan, hat, hincr]
    exact toNat_emod_succ_sub _ _ (Nat.two_pow_pos _)
  | sharedReset => rw [tally_sharedReset (by exact hm), tally_sharedReset hm, State.setTrk_cfg, hat, hincr]

/-- Commands run one after another. -/
theorem execAll_cons {i : Instr} {is : List Instr} {s t : State} (h : exec i s = .next t) :
    execAll (i :: is) s = execAll is t := by
  simp [execAll, h]

/-- Within a run of edges of channel `c`: the latest edge was at `prev` and started level `lvl`, and `n` overflows have
been counted since. -/
structure AfterEdge (g : Cfg) (c : Nat) (prev : Arg) (lvl : Bool) (n : Nat) (s : State) : Prop where
  inv   : s.Inv
  cfg   : s.cfg = g
  armed : (s.chan c).armed = true
  prior : (s.chan c).prior = true
  last  : (s.chan c).last = prev
  level : (s.chan c).level = lvl
  tally : s.tally c = n

/-- A sample as the numbers that R113 speaks of. -/
def sampleValues (x : Sample) : Nat × Bool := (x.dur.toNat, x.lvl)

section
variable {g : Cfg} {c n : Nat} {prev : Arg} {lvl : Bool} {s : State}

/-- One overflow more. -/
theorem AfterEdge.ovf (h : AfterEdge g c prev lvl n s) (hc : c < g.numCh) (hn : n + 1 < 2 ^ g.wTrk) :
    ∃ t, exec (.ovf (g.tmrOf c)) s = .next t ∧ AfterEdge g c prev lvl (n + 1) t ∧ ∀ k, t.content k = s.content k := by
  obtain ⟨hs, rfl, ha, hp, hl, hv, ht⟩ := h
  have hexec : exec (.ovf (s.cfg.tmrOf c)) s = .next _ :=
    if_neg (by simp [State.validTmr, hs.tmr_lt hc])
  refine ⟨_, hexec, ⟨(exec_cases hexec).inv hs, rfl, ha, hp, hl, hv, ?_⟩, fun k => rfl⟩
  rw [← ht] at hn ⊢
  exact (tally_setTrk_trkIncr hs hc).trans (Nat.mod_eq_of_lt hn)

/-- Overflows of the channel's timer are counted, and change nothing else that a later edge reads. -/
theorem AfterEdge.ovfs (h : AfterEdge g c prev lvl n s) (hc : c < g.numCh) {m : Nat} (hm : n + m < 2 ^ g.wTrk)
    (is : List Instr) :
    ∃ t, execAll (List.replicate m (.ovf (g.tmrOf c)) ++ is) s = execAll is t ∧ AfterEdge g c prev lvl (n + m) t
      ∧ ∀ k, t.content k = s.content k := by
  induction m generalizing n s with
  | zero => exact ⟨s, rfl, h, fun _ => rfl⟩
  | succ m ih =>
    obtain ⟨u, hexec, hu, hcu⟩ := h.ovf hc (by omega)
    obtain ⟨t, hall, ht, hct⟩ := ih hu (by omega)
    exact ⟨t, (execAll_cons hexec).trans hall, by rwa [Nat.add_right_comm] at ht, fun k => (hct k).trans (hcu k)⟩

/-- The next edge emits the sample of the time since the latest one. -/
theorem AfterEdge.edge (h : AfterEdge g c prev lvl n s) (hc : c < g.numCh) {raw : Arg}
    (hr : raw.toNat < g.modOf (g.tmrOf c)) (hroom : (s.content (g.qOf c)).length < g.capOf (g.qOf c)) :
    ∃ t x, exec (.edge c raw) s = .next t ∧ AfterEdge g c raw (!lvl) 0 t
      ∧ t.content (g.qOf c) = s.content (g.qOf c) ++ [x]
      ∧ sampleValues x
        = (((raw.toNat + n * g.modOf (g.tmrOf c) - prev.toNat : Int) % (2 ^ g.wDur : Nat)).toNat, lvl) := by
  obtain ⟨hs, rfl, ha, hp, rfl, rfl, rfl⟩ := h
  rw [content_length] at hroom
  obtain ⟨t, x, hcomp, hdur, hlvl, hcontent, -, -, -, -, -, -, -, hlevel, hlast, hprior, harmed, htally, -⟩ :=
    edgeInActiveStoresTheSample s c _ raw hs hc ha hr hp rfl hroom
  refine ⟨t, x, hcomp.exec_eq, ⟨(exec_cases hcomp.exec_eq).inv hs, hcomp.cfg, harmed, hprior, hlast, hlevel,
    htally.zero⟩, hcontent, Prod.ext ?_ hlvl⟩
  exact congrArg Int.toNat hdur

/-- The edges of a run, each after its overflows, emit their samples in order. -/
theorem AfterEdge.edges {l : List (Nat × Arg)} (h : AfterEdge g c prev lvl 0 s) (hc : c < g.numCh)
    (hl : ∀ e ∈ l, e.1 < 2 ^ g.wTrk ∧ e.2.toNat < g.modOf (g.tmrOf c))
    (hroom : (s.content (g.qOf c)).length + l.length ≤ g.capOf (g.qOf c)) :
    ∃ t, execAll (edgeRun c (g.tmrOf c) l) s = .next t
      ∧ (t.content (g.qOf c)).map sampleValues = (s.content (g.qOf c)).map sampleValues
          ++ emittedSamples g.wDur (g.modOf (g.tmrOf c)) prev.toNat lvl l := by
  induction l generalizing s prev lvl with
  | nil => exact ⟨s, rfl, by simp [emittedSamples]⟩
  | cons e l ih =>
    obtain ⟨m, raw⟩ := e
    obtain ⟨⟨hm, hr⟩, hl⟩ := List.forall_mem_cons.1 hl
    rw [List.length_cons] at hroom
    obtain ⟨u, hovfs, hu, hcu⟩ := h.ovfs hc (m := m) (by simpa using hm) (.edge c raw :: edgeRun c (g.tmrOf c) l)
    rw [Nat.zero_add] at hu
    obtain ⟨v, x, hexec, hv, hcv, hx⟩ := hu.edge hc hr (by rw [hcu]; omega)
    rw [hcu] at hcv
    obtain ⟨t, hall, hct⟩ := ih hv hl (by simp only [hcv, List.length_append, List.length_singleton]; omega)
    refine ⟨t, hovfs.trans ((execAll_cons hexec).trans hall), ?_⟩
    rw [hct, hcv, List.map_append, List.append_assoc]
    simp [emittedSamples, hx]

end

/-- The first edge starts the run and emits nothing. -/
theorem afterEdge_of_idle {s : State} {c : Nat} {first : Arg} (hs : s.Inv) (hc : c < s.cfg.numCh)
    (ha : (s.chan c).armed = true) (hr : first.toNat < s.cfg.modOf (s.cfg.tmrOf c)) (hp : (s.chan c).prior = false) :
    ∃ t, exec (.edge c first) s = .next t ∧ AfterEdge s.cfg c first false 0 t ∧ ∀ k, t.content k = s.content k := by
  obtain ⟨t, hcomp, hlast, hlevel, hprior, harmed, htally, -, hq, hslots⟩ :=
    edgeInIdleStartsTheChannel s c first hs hc ha hr hp
  have hqueue : ∀ k, t.queue k = s.queue k := fun k => by simp [State.queue, hq, hcomp.cfg]
  exact ⟨t, hcomp.exec_eq, ⟨(exec_cases hcomp.exec_eq).inv hs, hcomp.cfg, harmed, hprior, hlast, hlevel, htally.zero⟩,
    fun k => content_congr hcomp.cfg (by rw [hqueue]) (by rw [hqueue]) (hslots k)⟩

/-- Settles O43, by induction over the run from the state after the first edge. -/
theorem edgeRunDecodesDurationsAndLevels : Obligations.EdgeRunDecodesDurationsAndLevels := by
  rintro s c k first l hs hc ha hp rfl hr hl hroom
  obtain ⟨u, hexec, hu, hcu⟩ := afterEdge_of_idle hs hc ha hr hp
  obtain ⟨t, hall, hct⟩ := hu.edges hc hl (by rwa [hcu, content_length])
  exact ⟨t, (execAll_cons hexec).trans hall, hcu (s.cfg.qOf c) ▸ hct⟩

end Sys2Proof.Machine

/-! The statements about the overflow tracker: what each command does to the overflow counts and the snapshots, and the
correspondence of the two tally disciplines (41_overflow_tracker.md R130 to R139). -/

namespace Sys2Proof.Machine

/-! ### OVF (41_overflow_tracker.md R130) -/

/-- An OVF of a timer in range writes that timer's count (41_overflow_tracker.md R130). -/
theorem exec_ovf {s : State} {tm : Nat} (ht : tm < s.cfg.numTmr) : exec (.ovf tm) s =
    .next ((s.setTrk tm (trkIncr s.cfg.wTrk (s.trkAt tm))).emitOutput ⟨.ok, [], none⟩) := by
  simp [exec, execOvf, State.validTmr, ht]

/-- Settles O20: out of range OVF raises, in range it writes the timer's count, which every tally on the timer reads. -/
theorem ovfCountsOneOverflow : Obligations.OvfCountsOneOverflow := by
  intro s tm hs
  refine ⟨fun ht => ?_, fun ht => ?_⟩
  · simp [Raises, exec, execOvf, State.validTmr, Nat.not_lt.2 ht]
  · have hat := State.trkAt_setTrk_self (v := trkIncr s.cfg.wTrk (s.trkAt tm)) (hs.trkLen ▸ ht)
    have hcount := trkIncr_toNat (Cfg.wf_widths hs.cfgWf).2.2 (s.trkAt tm)
    refine ⟨_, completes_of_exec (exec_ovf ht), ?_, fun tm' hne => ?_, rfl, rfl, fun k i => ?_, fun _ c hc htm => ?_⟩
    · rw [State.emitOutput_trkAt, hat, hcount]
    · simp [hne]
    · simp
    · subst htm
      rw [State.emitOutput_tally, tally_setTrk_trkIncr hs hc]

/-! ### What the tallies read (10_state.md R24) -/

/-- Two states with the same overflow counts and snapshots: all that a tally reads. -/
structure SameCounts (s t : State) : Prop where
  cfg   : t.cfg = s.cfg
  trk   : t.trk = s.trk
  snaps : t.ch.map Channel.snap = s.ch.map Channel.snap

theorem snap_eq_getD (s : State) (c : Nat) : (s.chan c).snap = (s.ch.map Channel.snap).getD c 0 :=
  (List.getD_map ..).symm

namespace SameCounts

variable {s t u : State} {c : Nat}

theorem trans (h : SameCounts s t) (h' : SameCounts t u) : SameCounts s u :=
  ⟨h'.cfg.trans h.cfg, h'.trk.trans h.trk, h'.snaps.trans h.snaps⟩

theorem trkAt_eq (h : SameCounts s t) (tm : Nat) : t.trkAt tm = s.trkAt tm := by simp [State.trkAt, h.trk]

theorem snap_eq (h : SameCounts s t) (c : Nat) : (t.chan c).snap = (s.chan c).snap := by
  rw [snap_eq_getD, snap_eq_getD, h.snaps]

theorem tally_eq (h : SameCounts s t) (c : Nat) : t.tally c = s.tally c := by
  simp [State.tally, h.cfg, h.trkAt_eq, h.snap_eq]

/-- Writing a channel's record with its snapshot as it stands. -/
theorem setChan {x : Channel} (hx : x.snap = (s.chan c).snap) : SameCounts s (s.setChan c x) := by
  refine ⟨rfl, rfl, ?_⟩
  rw [State.setChan_ch, List.map_set, hx, snap_eq_getD]
  by_cases hc : c < (s.ch.map Channel.snap).length
  · rw [List.getD_eq_getElem _ _ hc, List.set_getElem_self]
  · rw [List.set_eq_of_length_le (Nat.le_of_not_lt hc)]

/-- ResetTally reads and writes nothing but the counts and snapshots (40_capture_channel.md R100). -/
theorem resetTally (h : SameCounts s t) (c : Nat) : SameCounts (resetTally c s) (resetTally c t) := by
  cases hm : s.cfg.ovfMode with
  | snapshot =>
    rw [resetTally_snapshot hm, resetTally_snapshot (h.cfg ▸ hm)]
    exact ⟨h.cfg, h.trk, by simp [List.map_set, h.cfg, h.snaps, h.trkAt_eq]⟩
  | sharedReset =>
    rw [resetTally_sharedReset hm, resetTally_sharedReset (h.cfg ▸ hm)]
    exact ⟨h.cfg, by simp [h.cfg, h.trk], h.snaps⟩

end SameCounts

/-- Writing one count leaves the tallies on every other timer alone. -/
theorem setTrk_tally_of_ne {s : State} {c tm : Nat} (h : s.cfg.tmrOf c ≠ tm) (v : BitVec 64) :
    (s.setTrk tm v).tally c = s.tally c := by
  simp [State.tally, h]

/-! ### What ResetTally does to the tallies (40_capture_channel.md R100) -/

/-- ResetTally leaves the tallies on every other timer alone, in either mode. -/
theorem resetTally_tally_of_tmr_ne {s : State} {c c' : Nat} (h : s.cfg.tmrOf c' ≠ s.cfg.tmrOf c) :
    (resetTally c s).tally c' = s.tally c' := by
  have hc : c' ≠ c := fun he => h (he ▸ rfl)
  simp [State.tally, resetTally_trkAt_of_ne h, resetTally_chan_of_ne hc]

/-- In SNAPSHOT mode ResetTally leaves every other channel's tally alone (41_overflow_tracker.md R132). -/
theorem resetTally_tally_of_ne {s : State} {c c' : Nat} (hm : s.cfg.ovfMode = .snapshot) (h : c' ≠ c) :
    (resetTally c s).tally c' = s.tally c' := by
  simp [resetTally_snapshot hm, State.tally, h]

/-- In SHARED_RESET mode ResetTally clears every tally on the timer (41_overflow_tracker.md R134). -/
theorem resetTally_tally_of_tmr_eq {s : State} {a b : Nat} (hm : s.cfg.ovfMode = .sharedReset)
    (ht : s.cfg.tmrOf b < s.trk.length) (h : s.cfg.tmrOf a = s.cfg.tmrOf b) : (resetTally b s).tally a = 0 := by
  rw [resetTally_sharedReset hm, tally_sharedReset (by exact hm), State.setTrk_cfg, h, State.trkAt_setTrk_self ht]
  rfl

/-! ### What a command does to the tallies -/

/-- The commands of channel `c` that reset its tally when they complete (40_capture_channel.md R100). -/
def ResetsTally (i : Instr) (c : Nat) : Prop := (∃ raw, i = .edge c raw) ∨ i = .openCh c ∨ i = .chreset c

theorem resetsTally_unique {i : Instr} {c c' : Nat} (h : ResetsTally i c) (h' : ResetsTally i c') : c = c' := by
  obtain ⟨raw, rfl⟩ | rfl | rfl := h <;> simpa [ResetsTally] using h'

/-- What a command that answers `t` did to the counts and snapshots: it kept them, though a command that resets a tally
keeps them only by raising a status; or it counted one overflow; or it reset the tally of its channel. -/
inductive TallyCase (s : State) (i : Instr) (t : State) : Prop where
  | kept (h : SameCounts s t)
      (hi : ∀ c, ResetsTally i c → ∃ st : Status, st.completes = false ∧ t.outputs = s.outputs ++ [⟨st, [], none⟩])
  | counted (tm : Nat) (hi : i = .ovf tm) (h : SameCounts (s.setTrk tm (trkIncr s.cfg.wTrk (s.trkAt tm))) t)
  | reset (c : Nat) (hi : ResetsTally i c) (hc : c < s.cfg.numCh) (h : SameCounts (resetTally c s) t)

/-- The counts and snapshots after any command (41_overflow_tracker.md R130, R132 to R134). -/
theorem CommandCase.tally_cases {s t : State} {i : Instr} (h : CommandCase s i t) : TallyCase s i t := by
  have reset {c : Nat} {x : Channel} (hx : x.snap = (s.chan c).snap) :
      SameCounts (resetTally c s) (resetTally c (s.setChan c x)) := (SameCounts.setChan hx).resetTally c
  cases h with
  | raised i st hst => exact .kept ⟨rfl, rfl, rfl⟩ fun _ _ => ⟨st, hst, rfl⟩
  | edgeIdle c raw hc => exact .reset c (.inl ⟨raw, rfl⟩) hc (.trans (reset (by rfl)) ⟨rfl, rfl, rfl⟩)
  | edgeStored c raw hc =>
    have hpush : SameCounts (s.setChan c ((s.chan c).toggled raw))
        ((pushStore (s.cfg.qOf c) (s.edgeSample c raw) s).setChan c ((s.chan c).toggled raw)) := ⟨rfl, rfl, rfl⟩
    exact .reset c (.inl ⟨raw, rfl⟩) hc (((reset (by rfl)).trans (hpush.resetTally c)).trans ⟨rfl, rfl, rfl⟩)
  | edgeDropped c raw hc =>
    have hpush : SameCounts (s.setChan c ((s.chan c).toggled raw))
        ((pushDrop (s.cfg.qOf c) s).setChan c ((s.chan c).toggled raw)) := ⟨rfl, rfl, rfl⟩
    exact .reset c (.inl ⟨raw, rfl⟩) hc (((reset (by rfl)).trans (hpush.resetTally c)).trans ⟨rfl, rfl, rfl⟩)
  | ovf tm _ => exact .counted tm rfl ⟨rfl, rfl, rfl⟩
  | opened c hc _ => exact .reset c (.inr (.inl rfl)) hc (.trans (reset (by rfl)) ⟨rfl, rfl, rfl⟩)
  | closed c _ => exact .kept (.trans (.setChan (by rfl)) ⟨rfl, rfl, rfl⟩) (by simp [ResetsTally])
  | read | cleared | setwm | rdreg => exact .kept ⟨rfl, rfl, rfl⟩ (by simp [ResetsTally])
  | chreset c hc => exact .reset c (.inr (.inr rfl)) hc (.trans (reset (by rfl)) ⟨rfl, rfl, rfl⟩)

/-- Settles O33: in SNAPSHOT mode ResetTally writes no tracker, so of what a command can do only OVF is left. -/
theorem snapshotTrackerWrittenOnlyByOvfAndReset : Obligations.SnapshotTrackerWrittenOnlyByOvfAndReset := by
  intro s t tm hm hstep hne
  cases step_cases hstep with
  | idle _ => exact absurd rfl hne
  | command w draw rest i t hin hdec hcase =>
    cases hcase.tally_cases with
    | kept h _ => exact absurd (h.trkAt_eq tm) hne
    | counted tm' hi h =>
      by_cases htm : tm = tm'
      · exact .inl ⟨w, draw, rest, hin, htm ▸ hi ▸ hdec⟩
      · exact absurd ((h.trkAt_eq tm).trans (State.trkAt_setTrk_of_ne htm)) hne
    | reset c _ _ h =>
      rw [resetTally_snapshot (by exact hm)] at h
      exact absurd (h.trkAt_eq tm) hne
  | illegal w draw rest e _ _ => exact absurd rfl hne
  | reset rest hin => exact .inr ⟨rest, hin⟩

/-- Settles O34: an overflow of another timer and the reset of another channel's tally are not read by the tally. -/
theorem snapshotTallyIgnoresOtherCommands : Obligations.SnapshotTallyIgnoresOtherCommands := by
  intro s t i c hm hexec hedge hopen hreset hovf
  cases (exec_cases hexec).tally_cases with
  | kept h _ => exact h.tally_eq c
  | counted tm hi h =>
    have htm : s.cfg.tmrOf c ≠ tm := fun he => hovf (he ▸ hi)
    rw [h.tally_eq, setTrk_tally_of_ne htm]
  | reset c' hi _ h =>
    have hc : c ≠ c' := by
      rintro rfl
      obtain ⟨raw, hi⟩ | hi | hi := hi
      exacts [hedge raw hi, hopen hi, hreset hi]
    rw [h.tally_eq, resetTally_tally_of_ne hm hc]

/-- Settles O35: a command that completes has raised nothing, so it reset its own tally, and that clears the tracker
which every tally on the timer is. -/
theorem sharedResetClearsEveryTallyOnTheTimer : Obligations.SharedResetClearsEveryTallyOnTheTimer := by
  intro s t i a b o hs hm hb htmr hi hexec hout hst
  cases (exec_cases hexec).tally_cases with
  | kept _ hraised =>
    obtain ⟨st, hincomplete, hout'⟩ := hraised b hi
    obtain rfl : o = ⟨st, [], none⟩ := by simpa using hout.symm.trans hout'
    obtain rfl | rfl := hst <;> exact absurd hincomplete nofun
  | counted tm hovf _ => simp [hovf] at hi
  | reset c hi' hc h =>
    obtain rfl : c = b := resetsTally_unique hi' hi
    rw [h.tally_eq, resetTally_tally_of_tmr_eq hm (hs.trk_lt hc) htmr]

end Sys2Proof.Machine

/-! The correspondence of the SNAPSHOT and the SHARED_RESET machine where every timer has at most one channel
(41_overflow_tracker.md R137). -/

namespace Sys2Proof.Machine

/-! ### A machine of the other discipline -/

/-- The SHARED_RESET machine with channels `ch` and overflow counts `trk`, and `s` in everything else. -/
def State.inSharedReset (s : State) (ch : List Channel) (trk : List (BitVec 64)) : State :=
  { s with cfg := { s.cfg with ovfMode := .sharedReset }, ch := ch, trk := trk }

/-- Two corresponding machines differ in the discipline, the channels and the counts alone. -/
theorem ModeEq.eq_inSharedReset {s u : State} (h : ModeEq s u) : u = s.inSharedReset u.ch u.trk := by
  obtain ⟨-, hcfg, -, -, hq, hepoch, hinitOk, hinputs, houtputs⟩ := h
  cases u
  simp_all [State.inSharedReset]

theorem pushState_inSharedReset (k : Nat) (x : Sample) (s : State) (ch : List Channel) (trk : List (BitVec 64)) :
    pushState k x (s.inSharedReset ch trk) = (pushState k x s).inSharedReset ch trk := by
  by_cases h : (s.queue k).occ = s.cfg.capOf k
  · rw [pushState_full (s := s.inSharedReset ch trk) h, pushState_full h]; rfl
  · rw [pushState_notFull (s := s.inSharedReset ch trk) h, pushState_notFull h]; rfl

/-- Channel `c` and the count of its timer exist, so that writing them is read back. -/
structure HasChannel (s : State) (c : Nat) : Prop where
  chan : c < s.ch.length
  trk  : s.cfg.tmrOf c < s.trk.length

theorem State.Inv.hasChannel {s : State} (h : s.Inv) {c : Nat} (hc : c < s.cfg.numCh) : HasChannel s c :=
  ⟨h.chan_lt hc, h.trk_lt hc⟩

theorem HasChannel.setChan {s : State} {c : Nat} (h : HasChannel s c) (x : Channel) : HasChannel (s.setChan c x) c :=
  ⟨by simpa using h.chan, h.trk⟩

theorem HasChannel.pushState {s : State} {c : Nat} (h : HasChannel s c) (k : Nat) (x : Sample) :
    HasChannel (pushState k x s) c :=
  ⟨by simpa using h.chan, by simpa using h.trk⟩

namespace ModeEq

variable {s u s' u' : State} {c : Nat}

/-! ### The same update of both machines -/

/-- The correspondence reads the configuration, channels and counts of each state, and wants the rest alike. -/
theorem congr (h : ModeEq s u) (hg : s'.cfg = s.cfg) (hc : s'.ch = s.ch) (ht : s'.trk = s.trk)
    (hu : u' = s'.inSharedReset u.ch u.trk) : ModeEq s' u' := by
  have hs : SameCounts s s' := ⟨hg, ht, by rw [hc]⟩
  have hu' : SameCounts u u' := ⟨by rw [hu, h.sharedCfg, ← hg]; rfl, by rw [hu]; rfl, by rw [hu]; rfl⟩
  subst hu
  refine ⟨hg ▸ h.snapshotMode, rfl, fun c hlt => ?_, fun c hlt => ?_, rfl, rfl, rfl, rfl, rfl⟩
  · have hchan : s'.chan c = s.chan c := by simp [State.chan, hc]
    rw [hchan]
    exact h.channels c (hg ▸ hlt)
  · rw [hs.tally_eq, hu'.tally_eq]
    exact h.tallies c (hg ▸ hlt)

/-- The queue reset of OPEN is the same in both machines (43_control.md R180). -/
theorem queueOpened (h : ModeEq s u) (k : Nat) : ModeEq (openQueue k s) (openQueue k u) :=
  h.congr rfl rfl rfl (congrArg (openQueue k) h.eq_inSharedReset)

/-- Two machines right after reset correspond: every tally is 0. -/
theorem resetWith {g : Cfg} (hm : g.ovfMode = .snapshot) :
    ModeEq (State.resetWith g) (State.resetWith { g with ovfMode := .sharedReset }) := by
  refine ⟨hm, rfl, fun c _ => by simp, fun c _ => ?_, rfl, rfl, rfl, rfl, rfl⟩
  rw [tally_snapshot (by exact hm), tally_sharedReset (by rfl)]
  simp [Channel.reset]

/-- Writing one channel in both machines with records that differ in the snapshot alone, the snapshots kept. -/
theorem setChan (h : ModeEq s u) (hs : HasChannel s c) (hu : HasChannel u c) {x y : Channel}
    (hxy : { x with snap := 0 } = { y with snap := 0 }) (hx : x.snap = (s.chan c).snap)
    (hy : y.snap = (u.chan c).snap) : ModeEq (s.setChan c x) (u.setChan c y) := by
  refine ⟨h.snapshotMode, h.sharedCfg, fun c' hlt => ?_, fun c' hlt => ?_, h.q, h.epoch, h.initOk, h.inputs, h.outputs⟩
  · by_cases hc : c' = c
    · subst hc
      rwa [State.chan_setChan_self hs.chan, State.chan_setChan_self hu.chan]
    · rw [State.chan_setChan_of_ne hc, State.chan_setChan_of_ne hc]
      exact h.channels c' hlt
  · rw [(SameCounts.setChan hx).tally_eq, (SameCounts.setChan hy).tally_eq]
    exact h.tallies c' hlt

/-- ResetTally zeroes the channel's tally in both machines, and no other channel is on its timer. -/
theorem tallyReset (h : ModeEq s u) (hone : OneChannelPerTimer s.cfg) (hc : c < s.cfg.numCh) (hs : HasChannel s c)
    (hu : HasChannel u c) : ModeEq (resetTally c s) (resetTally c u) := by
  have hm : u.cfg.ovfMode = .sharedReset := by rw [h.sharedCfg]
  refine ⟨by simp [h.snapshotMode], by simp [h.sharedCfg], fun c' hlt => ?_, fun c' hlt => ?_, by simp [h.q],
    by simp [h.epoch], by simp [h.initOk], by simp [h.inputs], by simp [h.outputs]⟩ <;>
    rw [resetTally_cfg] at hlt <;> by_cases he : c' = c
  · subst he
    rw [resetTally_chan_self hs.chan, resetTally_chan_self hu.chan]
    exact h.channels c' hlt
  · rw [resetTally_chan_of_ne he, resetTally_chan_of_ne he]
    exact h.channels c' hlt
  · subst he
    rw [resetTally_tally_self hs.chan hs.trk, resetTally_tally_self hu.chan hu.trk]
  · have hne : s.cfg.tmrOf c' ≠ s.cfg.tmrOf c := fun ht => he (hone c' hlt c hc ht)
    rw [resetTally_tally_of_tmr_ne hne, resetTally_tally_of_tmr_ne (by rw [h.sharedCfg]; exact hne)]
    exact h.tallies c' hlt

/-- Rewriting a channel's record but for its snapshot and then ResetTally: what EDGE, OPEN and CHRESET do to the
channels and counts. -/
theorem recordReset (h : ModeEq s u) (hone : OneChannelPerTimer s.cfg) (hc : c < s.cfg.numCh) (hs : HasChannel s c)
    (hu : HasChannel u c) (f : Channel → Channel) (hf : ∀ x v, f { x with snap := v } = { f x with snap := v }) :
    ModeEq (resetTally c (s.setChan c (f (s.chan c)))) (resetTally c (u.setChan c (f (u.chan c)))) := by
  have hsnap (x : Channel) : (f x).snap = x.snap := (congrArg Channel.snap (hf x x.snap) :)
  have hrecord := (hf _ 0).symm.trans ((congrArg f (h.channels c hc)).trans (hf _ 0))
  exact (h.setChan hs hu hrecord (hsnap _) (hsnap _)).tallyReset hone hc (hs.setChan _) (hu.setChan _)

/-- OVF raises the tallies on its timer alike in both machines, whatever the counts stand at. -/
theorem count (h : ModeEq s u) (hs : s.Inv) (hu : u.Inv) (tm : Nat) :
    ModeEq (s.setTrk tm (trkIncr s.cfg.wTrk (s.trkAt tm))) (u.setTrk tm (trkIncr u.cfg.wTrk (u.trkAt tm))) := by
  have hcu {c : Nat} (hlt : c < s.cfg.numCh) : c < u.cfg.numCh := by rw [h.sharedCfg]; exact hlt
  have htu (c : Nat) : u.cfg.tmrOf c = s.cfg.tmrOf c := by rw [h.sharedCfg]; rfl
  have hwu : u.cfg.wTrk = s.cfg.wTrk := by rw [h.sharedCfg]
  refine ⟨h.snapshotMode, h.sharedCfg, h.channels, fun c hlt => ?_, h.q, h.epoch, h.initOk, h.inputs, h.outputs⟩
  by_cases ht : s.cfg.tmrOf c = tm
  · subst ht
    have hut := tally_setTrk_trkIncr hu (hcu hlt)
    rw [htu] at hut
    rw [tally_setTrk_trkIncr hs hlt, hut, h.tallies c hlt, hwu]
  · rw [setTrk_tally_of_ne ht, setTrk_tally_of_ne (by rwa [htu]), h.tallies c hlt]

end ModeEq

/-! ### The same command in both machines -/

/-- Both results are next states, which correspond. -/
def AnswersModeEq (r r' : Result) : Prop := ∃ t t', r = .next t ∧ r' = .next t' ∧ ModeEq t t'

/-- Both results take the same branch of one condition. -/
theorem AnswersModeEq.ite {p : Bool} {a b a' b' : Result} (ht : p = true → AnswersModeEq a a')
    (hf : p = false → AnswersModeEq b b') : AnswersModeEq (if p then a else b) (if p then a' else b') := by
  cases p
  · exact hf rfl
  · exact ht rfl

/-- The same response on states that correspond. -/
theorem AnswersModeEq.respond {s u : State} {st : Status} {d : List Word} {n : Option Nat} (h : ModeEq s u) :
    AnswersModeEq (respond st d n s) (respond st d n u) :=
  ⟨_, _, rfl, rfl, h.snapshotMode, h.sharedCfg, h.channels, h.tallies, h.q, h.epoch, h.initOk, h.inputs,
    congrArg (· ++ [_]) h.outputs⟩

namespace ModeEq

variable {s : State} {ch : List Channel} {trk : List (BitVec 64)}

section
variable (h : ModeEq s (s.inSharedReset ch trk))
include h

theorem raise (st : Status) : AnswersModeEq (raise st s) (raise st (s.inSharedReset ch trk)) :=
  .respond h

/-- A command that names a channel raises alike in both machines, and past the check the channel exists. -/
theorem checkChan {c : Nat} {a b : Result} (hab : c < s.cfg.numCh → AnswersModeEq a b) :
    AnswersModeEq (if !s.validChan c then Machine.raise .errId s else a)
      (if !(s.inSharedReset ch trk).validChan c then Machine.raise .errId (s.inSharedReset ch trk) else b) :=
  .ite (fun _ => h.raise _) fun hc => hab (by simpa [State.validChan] using hc)

/-- Every register but TMR_TRK and CH_SNAP reads alike in both machines. -/
theorem regValue_eq {id : Nat} {r : Reg} (hid : r.namesTimer = false → id < s.cfg.numCh) (htrk : r ≠ .tmrTrk)
    (hsnap : r ≠ .chSnap) : s.regValue id r = (s.inSharedReset ch trk).regValue id r := by
  cases r with
  | chStatus => exact (congrArg Channel.status (h.channels id (hid rfl)) :)
  | chLast => exact (congrArg (BitVec.setWidth 64 ·.last) (h.channels id (hid rfl)) :)
  | chOvf => exact congrArg (BitVec.ofNat 64) (h.tallies id (hid rfl))
  | chSnap => exact absurd rfl hsnap
  | tmrTrk => exact absurd rfl htrk
  | chBind | qOcc | qWm | qDrop | qCap | tmrMod => rfl

theorem edgeSample_eq {c : Nat} (hc : c < s.cfg.numCh) (raw : Arg) :
    s.edgeSample c raw = (s.inSharedReset ch trk).edgeSample c raw := by
  have hchan := h.channels c hc
  have hlast : (s.chan c).last = ((s.inSharedReset ch trk).chan c).last := (congrArg Channel.last hchan :)
  have hlevel : (s.chan c).level = ((s.inSharedReset ch trk).chan c).level := (congrArg Channel.level hchan :)
  simp only [State.edgeSample, State.duration, h.tallies c hc, hlast, hlevel]
  rfl

variable (hs : s.Inv) (hu : (s.inSharedReset ch trk).Inv) (hone : OneChannelPerTimer s.cfg)
include hs hu hone

theorem edgeActive {c : Nat} (hc : c < s.cfg.numCh) (raw : Arg) :
    AnswersModeEq (edgeActive c raw s) (edgeActive c raw (s.inSharedReset ch trk)) := by
  have hpush : ModeEq (pushState (s.cfg.qOf c) (s.edgeSample c raw) s)
      (pushState (s.cfg.qOf c) (s.edgeSample c raw) (s.inSharedReset ch trk)) :=
    h.congr (by simp) (by simp) (by simp) (pushState_inSharedReset ..)
  have hreset := hpush.recordReset (by simpa using hone) (by simpa using hc) ((hs.hasChannel hc).pushState _ _)
    ((hu.hasChannel hc).pushState _ _) (·.toggled raw) fun _ _ => rfl
  rw [pushState_chan, pushState_chan] at hreset
  simp only [Machine.edgeActive]
  rw [← h.edgeSample_eq hc]
  exact .respond hreset

theorem execEdge (c : Nat) (raw : Arg) :
    AnswersModeEq (execEdge c raw s) (execEdge c raw (s.inSharedReset ch trk)) := by
  refine h.checkChan fun hc => ?_
  have hchan := h.channels c hc
  have harmed : (s.chan c).armed = ((s.inSharedReset ch trk).chan c).armed := (congrArg Channel.armed hchan :)
  have hprior : (s.chan c).prior = ((s.inSharedReset ch trk).chan c).prior := (congrArg Channel.prior hchan :)
  rw [← harmed, ← hprior]
  refine .ite (fun _ => h.raise _) fun _ => .ite (fun _ => h.raise _) fun _ => .ite (fun _ => ?_)
    fun _ => h.edgeActive hs hu hone hc raw
  exact .respond (h.recordReset hone hc (hs.hasChannel hc) (hu.hasChannel hc) (·.started raw) fun _ _ => rfl)

/-- Every command but RDREG of TMR_TRK and CH_SNAP answers alike in both machines: READ, CLEAR and SETWM use the queues
alone, and the others keep the correspondence by what they write. -/
theorem exec {i : Instr} (hi : ∀ id, i ≠ .rdreg id .tmrTrk ∧ i ≠ .rdreg id .chSnap) :
    AnswersModeEq (exec i s) (exec i (s.inSharedReset ch trk)) := by
  cases i with
  | edge c raw => exact h.execEdge hs hu hone c raw
  | ovf tm => exact .ite (fun _ => h.raise _) fun _ => .respond (h.count hs hu tm)
  | openCh c =>
    refine h.checkChan fun hc => .ite (fun _ => h.raise _) fun _ => ?_
    have hreset := h.recordReset hone hc (hs.hasChannel hc) (hu.hasChannel hc)
      (fun x => { x.idled with armed := true }) fun _ _ => rfl
    exact .respond (hreset.queueOpened (s.cfg.qOf c))
  | close c =>
    refine h.checkChan fun hc => ?_
    have hrecord := congrArg (fun x : Channel => { x with armed := false }) (h.channels c hc)
    exact .respond (h.setChan (hs.hasChannel hc) (hu.hasChannel hc) hrecord rfl rfl)
  | read | clear | setwm => exact h.checkChan fun _ => .respond (h.congr rfl rfl rfl rfl)
  | rdreg id r =>
    refine .ite (fun _ => h.raise _) fun hv => ?_
    obtain ⟨htrk, hsnap⟩ := hi id
    rw [← h.regValue_eq (fun hr => ?_) (fun he => htrk (he ▸ rfl)) (fun he => hsnap (he ▸ rfl))]
    · exact .respond h
    · simpa [hr, State.validChan] using hv
  | chreset c =>
    refine h.checkChan fun hc => ?_
    exact .respond (h.recordReset hone hc (hs.hasChannel hc) (hu.hasChannel hc) Channel.idled fun _ _ => rfl)

/-- The next event is taken alike in both machines. -/
theorem step (hi : ∀ e ∈ s.inputs, ¬ e.readsTracker) : AnswersModeEq (step s) (step (s.inSharedReset ch trk)) := by
  cases hin : s.inputs with
  | nil =>
    rw [step_of_no_inputs hin, step_of_no_inputs (s := s.inSharedReset ch trk) hin]
    exact ⟨_, _, rfl, rfl, h⟩
  | cons e rest =>
    rw [step_of_inputs hin, step_of_inputs (s := s.inSharedReset ch trk) hin]
    cases e with
    | reset => exact .respond ((ModeEq.resetWith h.snapshotMode).congr rfl rfl rfl rfl)
    | cmd w draw =>
      simp only [takeEvent, takeCommand]
      cases hdec : decode w with
      | error e => exact .respond (h.congr rfl rfl rfl rfl)
      | ok i =>
        have hnot : ¬ (Event.cmd w draw).readsTracker := hi _ (by simp [hin])
        have hframe : ModeEq { s with inputs := rest, initOk := draw }
          (State.inSharedReset { s with inputs := rest, initOk := draw } ch trk) := h.congr rfl rfl rfl rfl
        refine hframe.exec (hs.congr rfl rfl rfl rfl) (hu.congr rfl rfl rfl rfl) hone fun id => ⟨?_, ?_⟩
        · rintro rfl
          exact hnot ⟨id, .inl hdec⟩
        · rintro rfl
          exact hnot ⟨id, .inr hdec⟩

end

end ModeEq

/-! ### Runs of both machines -/

/-- No command takes an event (20_memory.md R55). -/
theorem CommandCase.inputs {s t : State} {i : Instr} (h : CommandCase s i t) : t.inputs = s.inputs := by
  cases h <;> simp

/-- A step takes the next event and adds none. -/
theorem step_inputs {s t : State} (h : step s = .next t) : t.inputs = s.inputs.tail := by
  cases step_cases h with
  | idle hin => simp [hin]
  | command w draw rest i t hin _ hc => rw [hin]; exact hc.inputs
  | illegal w draw rest e hin _ => rw [hin]; rfl
  | reset rest hin => rw [hin]; rfl

/-- Settles O42, by induction on the number of steps: the correspondence and both invariants are kept by every step. -/
theorem modesAgreeOnOneChannelTimers : Obligations.ModesAgreeOnOneChannelTimers := by
  refine ⟨fun s u n hs hu h hone hin => ?_, fun g evs _ hm => (ModeEq.resetWith hm).congr rfl rfl rfl rfl⟩
  induction n generalizing s u with
  | zero => exact ⟨s, u, rfl, rfl, h⟩
  | succ n ih =>
    obtain ⟨t, t', ht, ht', heq⟩ : AnswersModeEq (step s) (step u) := by
      have he := h.eq_inSharedReset
      rw [he] at h hu ⊢
      exact h.step hs hu hone hin
    rw [run_succ n ht, run_succ n ht']
    refine ih t t' (step_inv hs ht) (step_inv hu ht') heq (step_cfg ht ▸ hone) fun e he => hin e ?_
    exact List.mem_of_mem_tail (step_inputs ht ▸ he)

end Sys2Proof.Machine

/-! The statements about the sample queues: READ, CLEAR and SETWM, and the NOTIFY of the crossing PUSH
(42_sample_queue.md R153 to R167). -/

namespace Sys2Proof.Machine

/-! ### Writing a queue's record -/

/-- Queue `k` has the record `x` but for its storage, and no slot, other queue, channel or tracker was written:
what READ, CLEAR and SETWM do. -/
structure QueueWritten (k : Nat) (x : Queue) (s t : State) : Prop where
  rd     : (t.queue k).rd = x.rd
  occ    : (t.queue k).occ = x.occ
  wm     : (t.queue k).wm = x.wm
  drop   : (t.queue k).drop = x.drop
  slots  : KeepsAllSlots s t
  others : KeepsOtherQueues k s t
  ch     : t.ch = s.ch
  trk    : t.trk = s.trk

/-- Writing a record with the storage as it was. -/
theorem queueWritten_setQueue {s : State} {k : Nat} {x : Queue} (hk : k < s.q.length)
    (hx : x.store = (s.queue k).store) : QueueWritten k x s (s.setQueue k x) := by
  have hq : (s.setQueue k x).queue k = x := State.queue_setQueue_self hk
  exact ⟨congrArg Queue.rd hq, congrArg Queue.occ hq, congrArg Queue.wm hq, congrArg Queue.drop hq,
    memRead_setQueue_of_store hx, fun _ hne => State.queue_setQueue_of_ne hne, rfl, rfl⟩

/-- Removing the `n` oldest samples moves the read index past them (42_sample_queue.md R155). -/
theorem queueWritten_dequeue {s : State} {k : Nat} (hk : k < s.q.length) (n : Nat) :
    QueueWritten k { s.queue k with rd := s.slotOf k n, occ := (s.queue k).occ - n } s (dequeue k n s) :=
  queueWritten_setQueue hk rfl

/-! ### READ (42_sample_queue.md R155) -/

/-- READ never removes more than the queue holds. -/
theorem readCount_le (s : State) (k : Nat) (max : Arg) : s.readCount k max ≤ (s.queue k).occ := Nat.min_le_right _ _

/-- Settles O21: out of range READ raises; in range the samples it answers are those `dequeue` drops from `Q(k)`. -/
theorem readDrainsOldestFirst : Obligations.ReadDrainsOldestFirst := by
  rintro s c k max hs rfl
  refine ⟨fun hc => ?_, fun hc => ?_⟩
  · simp [Raises, exec, execRead, State.validChan, Nat.not_lt.2 hc]
  · have hk := hs.queue_lt hc
    have hcomp := completes_of_exec (exec_read hc max)
    rw [readData_eq (readCount_le s _ max)] at hcomp
    have hw := queueWritten_dequeue hk (s.readCount (s.cfg.qOf c) max)
    exact ⟨_, _, rfl, hcomp, dequeue_content hk, hw.occ, hw.rd, hw.wm, hw.drop, hw.slots, hw.others, hw.ch, hw.trk⟩

/-! ### CLEAR (42_sample_queue.md R160) -/

/-- A CLEAR of a channel in range writes the occupancy of its queue (42_sample_queue.md R160). -/
theorem exec_clear {s : State} {c : Nat} (hc : c < s.cfg.numCh) : exec (.clear c) s =
    .next ((s.setQueue (s.cfg.qOf c) { s.queue (s.cfg.qOf c) with occ := 0 }).emitOutput ⟨.ok, [], none⟩) := by
  simp [exec, execClear, State.validChan, hc]

/-- Settles O23: out of range CLEAR raises, in range it writes the record with occupancy 0. -/
theorem clearEmptiesTheQueue : Obligations.ClearEmptiesTheQueue := by
  rintro s c k hs rfl
  refine ⟨fun hc => ?_, fun hc => ?_⟩
  · simp [Raises, exec, execClear, State.validChan, Nat.not_lt.2 hc]
  · have hw := queueWritten_setQueue (x := { s.queue (s.cfg.qOf c) with occ := 0 }) (hs.queue_lt hc) rfl
    exact ⟨_, completes_of_exec (exec_clear hc), hw.occ, content_eq_nil hw.occ, hw.rd, hw.wm, hw.drop, hw.slots,
      hw.others, hw.ch, hw.trk⟩

/-- Settles O24: CLEAR leaves an empty queue and the channel as it was, so the EDGE has room and appends to nothing. -/
theorem clearThenEdgeHoldsOneSample : Obligations.ClearThenEdgeHoldsOneSample := by
  rintro s c k raw hs hc ha hr hp hk -
  obtain ⟨t, hclear, hocc, hcontent, -, -, hdrop, -, -, hch, -⟩ := (clearEmptiesTheQueue s c k hs hk).2 hc
  have ht : t.Inv := (exec_cases hclear.exec_eq).inv hs
  have hchan : t.chan c = s.chan c := by simp [State.chan, hch]
  have hroom : (t.queue k).occ < t.cfg.capOf k := by
    rw [hocc, hclear.cfg, hk]
    exact (Cfg.wf_cap hs.cfgWf (hs.q_lt hc)).1
  rw [← hchan] at ha hp
  rw [← hclear.cfg] at hc hr hk
  obtain ⟨u, x, hedge, -, hlvl, hcontent', hocc', -, -, hdrop', -⟩ :=
    edgeInActiveStoresTheSample t c k raw ht hc ha hr hp hk hroom
  refine ⟨t, u, x, hclear.exec_eq, hedge.exec_eq, ?_, ?_, ?_, hdrop'.trans hdrop⟩
  · rw [hcontent', hcontent, List.nil_append]
  · rw [hlvl, hchan]
  · rw [hocc', hocc]

/-! ### SETWM (42_sample_queue.md R165) -/

/-- A SETWM of a channel in range writes the watermark of its queue (42_sample_queue.md R165). -/
theorem exec_setwm {s : State} {c : Nat} (hc : c < s.cfg.numCh) (value : Arg) : exec (.setwm c value) s =
    .next ((s.setQueue (s.cfg.qOf c) { s.queue (s.cfg.qOf c) with wm := value }).emitOutput ⟨.ok, [], none⟩) := by
  simp [exec, execSetwm, State.validChan, hc]

/-- Settles O25: out of range SETWM raises, in range it writes the record with the value as its watermark. -/
theorem setwmStoresAnyValue : Obligations.SetwmStoresAnyValue := by
  rintro s c k value hs rfl
  refine ⟨fun hc => ?_, fun hc => ?_⟩
  · simp [Raises, exec, execSetwm, State.validChan, Nat.not_lt.2 hc]
  · have hk := hs.queue_lt hc
    have hw := queueWritten_setQueue (x := { s.queue (s.cfg.qOf c) with wm := value }) hk rfl
    exact ⟨_, completes_of_exec (exec_setwm hc value), hw.wm, content_setQueue_of_same hk rfl rfl rfl, hw.occ, hw.rd,
      hw.drop, hw.slots, hw.others, hw.ch, hw.trk⟩

/-! ### Any channel of a queue (42_sample_queue.md R163) -/

/-- Settles O37: in range, the three commands read and write the channel's queue, and nothing else of the channel. -/
theorem queueCommandsAgreeThroughAnyChannel : Obligations.QueueCommandsAgreeThroughAnyChannel := by
  intro s c c' a hc hc' hq
  refine ⟨?_, ?_, ?_⟩
  · rw [exec_read hc, exec_read hc', hq]
  · rw [exec_clear hc, exec_clear hc', hq]
  · rw [exec_setwm hc, exec_setwm hc', hq]

/-! ### NOTIFY (42_sample_queue.md R153) -/

/-- A command whose output carries a NOTIFY is an EDGE whose PUSH found room and notified. -/
theorem CommandCase.of_notify {s t : State} {i : Instr} {st : Status} {data : List Word} {k : Nat}
    (h : CommandCase s i t) (ho : t.outputs = s.outputs ++ [⟨st, data, some k⟩]) :
    ∃ c raw, i = .edge c raw ∧ c < s.cfg.numCh ∧ (s.chan c).armed = true
      ∧ raw.toNat < s.cfg.modOf (s.cfg.tmrOf c) ∧ (s.chan c).prior = true
      ∧ (s.queue (s.cfg.qOf c)).occ ≠ s.cfg.capOf (s.cfg.qOf c) ∧ pushNotify (s.cfg.qOf c) s = some k := by
  cases h with
  | edgeStored c raw hc ha hr hp hf =>
    obtain ⟨-, -, hn⟩ : .ok = st ∧ [] = data ∧ pushNotify (s.cfg.qOf c) s = some k := by simpa using ho
    exact ⟨c, raw, rfl, hc, ha, hr, hp, hf, hn⟩
  | _ => simp at ho

/-- With room in the queue, PUSH notifies its own queue, on the crossing. -/
theorem pushNotify_eq_some_iff {s : State} {k k' : Nat} (hf : (s.queue k).occ < s.cfg.capOf k) :
    pushNotify k s = some k' ↔ k = k' ∧ (s.queue k).wm.toNat = (s.queue k).occ + 1 := by
  rw [pushNotify_of_room hf]
  split <;> simp [*]

/-- Settles O30: only the PUSH that succeeds can notify, and with room in the queue it does so on the crossing. -/
theorem notifyExactlyOnTheCrossing : Obligations.NotifyExactlyOnTheCrossing := by
  intro s t i k hs hexec
  constructor
  · rintro ⟨st, data, ho⟩
    obtain ⟨c, raw, hi, hc, ha, hr, hp, hf, hn⟩ := (exec_cases hexec).of_notify ho
    have hroom := Nat.lt_of_le_of_ne (hs.queueInv _ (hs.q_lt hc)).occLe hf
    obtain ⟨rfl, hwm⟩ := (pushNotify_eq_some_iff hroom).1 hn
    exact ⟨c, raw, hi, hc, ha, hr, hp, rfl, hroom, hwm⟩
  · rintro ⟨c, raw, rfl, hc, ha, hr, hp, rfl, hroom, hwm⟩
    have hn := (pushNotify_eq_some_iff hroom).2 ⟨rfl, hwm⟩
    have hcomp := completes_of_exec (exec_edge_stored hc ha hr hp hroom)
    rw [← next_inj (hexec.symm.trans hcomp.exec_eq), hn] at hcomp
    exact ⟨.ok, [], hcomp.outputs⟩

end Sys2Proof.Machine

/-! The statements about the control commands: OPEN, CLOSE and RDREG (43_control.md R180 to R186). -/

namespace Sys2Proof.Machine

/-! ### OPEN (43_control.md R180) -/

/-- The default watermark is half the capacity: holding it in 32 bits loses nothing. -/
theorem wmDefault_toNat {g : Cfg} (h : g.wf = true) {k : Nat} (hk : k < g.numQ) :
    (g.wmDefault k).toNat = g.capOf k / 2 := by
  have hcap := (Cfg.wf_cap h hk).2
  exact Nat.mod_eq_of_lt (by omega)

/-- An OPEN of a channel in range with a successful draw (43_control.md R180). -/
theorem exec_openCh {s : State} {c : Nat} (hc : c < s.cfg.numCh) (hd : s.initOk = true) :
    exec (.openCh c) s = .next ((openState c s).emitOutput ⟨.ok, [], none⟩) := by
  simp [exec, execOpen, State.validChan, hc, hd]

/-- OPEN writes the idle, armed record and resets the tally; the reset of the queue leaves both alone. -/
theorem channelWritten_openState {s : State} {c : Nat} (hs : s.Inv) (hc : c < s.cfg.numCh) (o : StepOutput) :
    ChannelWritten c { (s.chan c).idled with armed := true } s ((openState c s).emitOutput o) := by
  obtain ⟨hlast, hlevel, hprior, harmed, ⟨hsnapshot, hshared, hzero⟩, hothers⟩ :=
    channelWritten_resetTally (x := { (s.chan c).idled with armed := true }) hs hc rfl rfl rfl rfl o
  exact ⟨hlast, hlevel, hprior, harmed, ⟨hsnapshot, hshared, hzero⟩, hothers⟩

/-- OPEN's reset of a queue writes its record and no slot. -/
theorem queueWritten_openQueue {s : State} {k : Nat} (hk : k < s.q.length) :
    QueueWritten k { s.queue k with occ := 0, rd := 0, wm := s.cfg.wmDefault k, drop := 0 } s (openQueue k s) :=
  queueWritten_setQueue hk rfl

/-- Settles O26: OPEN raises out of range or on the draw 0; else it writes the channel's record, its tally and its
queue's record. -/
theorem openResetsAndArms : Obligations.OpenResetsAndArms := by
  rintro s c k hs rfl
  refine ⟨fun hc => ?_, fun hc hd => ?_, fun hc hd => ?_⟩
  · simp [Raises, exec, execOpen, State.validChan, Nat.not_lt.2 hc]
  · simp [Raises, exec, execOpen, State.validChan, hc, hd]
  · have hw := channelWritten_openState hs hc ⟨.ok, [], none⟩
    have hq : QueueWritten (s.cfg.qOf c) _ _ (openState c s) := queueWritten_openQueue (by simpa using hs.queue_lt hc)
    refine ⟨_, completes_of_exec (exec_openCh hc hd), hw.last, hw.level, hw.prior, hw.armed, hw.tally, hw.others,
      hq.occ, hq.rd, ?_, hq.drop, content_eq_nil hq.occ, fun k' hne => ?_, fun k' i => ?_⟩
    · rw [State.emitOutput_queue, hq.wm, resetTally_cfg]
      exact wmDefault_toNat hs.cfgWf (hs.q_lt hc)
    · simpa using hq.others k' hne
    · simpa using hq.slots k' i

/-! ### CLOSE (43_control.md R183) -/

/-- A CLOSE of a channel in range writes its `armed` (43_control.md R183). -/
theorem exec_close {s : State} {c : Nat} (hc : c < s.cfg.numCh) :
    exec (.close c) s = .next ((s.setChan c { s.chan c with armed := false }).emitOutput ⟨.ok, [], none⟩) := by
  simp [exec, execClose, State.validChan, hc]

/-- Settles O27: out of range CLOSE raises, in range it writes the channel's record with `armed` cleared. -/
theorem closeDisarms : Obligations.CloseDisarms := by
  intro s c hs
  refine ⟨fun hc => ?_, fun hc => ?_⟩
  · simp [Raises, exec, execClose, State.validChan, Nat.not_lt.2 hc]
  · have hw : (s.setChan c { s.chan c with armed := false }).chan c = _ := State.chan_setChan_self (hs.chan_lt hc)
    exact ⟨_, completes_of_exec (exec_close hc), (congrArg Channel.armed hw :), (congrArg Channel.last hw :),
      (congrArg Channel.level hw :), (congrArg Channel.prior hw :), (congrArg Channel.snap hw :),
      fun _ hne => State.chan_setChan_of_ne hne, rfl, rfl, fun _ _ => rfl⟩

/-! ### RDREG (43_control.md R185) -/

/-- The class of IDs that RDREG checks is the register's own (10_state.md R32). -/
theorem rdregIdOutOfRange_iff (s : State) (id : Nat) (r : Reg) :
    RdregIdOutOfRange s id r ↔ (if r.namesTimer then s.validTmr id else s.validChan id) = false := by
  cases r <;> simp [RdregIdOutOfRange, Reg.namesTimer, State.validTmr, State.validChan]

/-- CH_STATUS by its four bits (10_state.md R33); EXPECT is set in ACTIVE at the level LOW (R25). -/
theorem Channel.status_toNat (x : Channel) : x.status.toNat =
    x.armed.toNat + 2 * x.prior.toNat + 4 * x.level.toNat + 8 * (x.prior && !x.level).toNat := by
  have hexpect : x.expect.bit = (x.prior && !x.level) := by
    cases hp : x.prior <;> cases hl : x.level <;> simp [Channel.expect, Polarity.bit, hp, hl]
  simp only [Channel.status, toNat_append_add, BitVec.toNat_ofNat, BitVec.toNat_ofBool, hexpect]
  omega

/-- CH_BIND by its two bytes (10_state.md R33). -/
theorem bindWord_toNat {q t : Nat} (hq : q < 256) (ht : t < 256) :
    ((0#48) ++ BitVec.ofNat 8 q ++ BitVec.ofNat 8 t).toNat = 256 * q + t := by
  simp only [toNat_append_add, BitVec.toNat_ofNat]
  omega

/-- A channel's register holds its number: no value is cut off at 64 bits. -/
theorem regValue_toNat_of_channel {s : State} (hs : s.Inv) {id : Nat} (hc : id < s.cfg.numCh) {r : Reg}
    (hr : r.namesTimer = false) : (s.regValue id r).toNat = registerNumber s id r := by
  have hcap := (Cfg.wf_cap hs.cfgWf (hs.q_lt hc)).2
  cases r with
  | chStatus => exact Channel.status_toNat _
  | chLast | qWm | qDrop => exact BitVec.toNat_setWidth_of_le (by decide)
  | chOvf =>
    have hlt := (tally_lt hs hc).trans_le (Nat.pow_le_pow_right two_pos (Cfg.wf_widths hs.cfgWf).2.2)
    exact Nat.mod_eq_of_lt hlt
  | chBind =>
    obtain ⟨-, htmr, hq⟩ := Cfg.wf_counts hs.cfgWf
    exact bindWord_toNat ((hs.q_lt hc).trans_le hq) ((hs.tmr_lt hc).trans_le htmr)
  | chSnap => rfl
  | qOcc =>
    have hocc := (hs.queueInv _ (hs.q_lt hc)).occLe
    exact Nat.mod_eq_of_lt (by omega)
  | qCap => exact Nat.mod_eq_of_lt (by omega)
  | tmrTrk | tmrMod => cases hr

/-- A timer's register holds its number: no value is cut off at 64 bits. -/
theorem regValue_toNat_of_timer {s : State} (hs : s.Inv) {id : Nat} (ht : id < s.cfg.numTmr) {r : Reg}
    (hr : r.namesTimer = true) : (s.regValue id r).toNat = registerNumber s id r := by
  cases r with
  | tmrTrk => rfl
  | tmrMod =>
    have hmod := (Cfg.wf_mod hs.cfgWf ht).2
    exact Nat.mod_eq_of_lt (by omega)
  | chStatus | chLast | chOvf | chBind | chSnap | qOcc | qWm | qDrop | qCap => cases hr

/-- Settles O28: out of range for the register's class RDREG raises, in range it answers the register's value. -/
theorem rdregAnswersTheRegister : Obligations.RdregAnswersTheRegister := by
  intro s id r hs
  rw [rdregIdOutOfRange_iff, Bool.not_eq_false]
  refine ⟨fun hv => ?_, fun hv => ⟨s.regValue id r, ?_, ?_⟩⟩
  · simp [Raises, exec, execRdreg, hv]
  · simp [exec, execRdreg, hv]
  · cases hr : r.namesTimer with
    | false => exact regValue_toNat_of_channel hs (by simpa [hr, State.validChan] using hv) hr
    | true => exact regValue_toNat_of_timer hs (by simpa [hr, State.validTmr] using hv) hr

end Sys2Proof.Machine

/-! The statements about the statuses: every event gives one output, and which status a command ends with
(60_exceptions.md R200 to R202). -/

namespace Sys2Proof.Machine

/-! ### The codes (60_exceptions.md R200) -/

/-- Settles O45, by the table of the codes. -/
theorem statusCodeNumbers : Obligations.StatusCodeNumbers := by
  refine ⟨rfl, fun st => ?_⟩
  cases st <;> decide

/-! ### One step per event (60_exceptions.md R202) -/

/-- Settles O44: with no event, `step` takes none. -/
theorem noEventNoChange : Obligations.NoEventNoChange := fun _ => step_of_no_inputs

/-- Taking an event gives one output, and keeps the events to come and the outputs given before. -/
theorem takeEvent_emits (e : Event) (s : State) :
    ∃ (u : State) (o : StepOutput), takeEvent e s = .next (u.emitOutput o)
      ∧ u.inputs = s.inputs ∧ u.outputs = s.outputs := by
  cases e with
  | reset => exact ⟨_, _, rfl, rfl, rfl⟩
  | cmd w draw =>
    cases hd : decode w with
    | ok i =>
      obtain ⟨u, o, hexec, hkeep⟩ := exec_emits i { s with initOk := draw }
      exact ⟨u, o, (takeCommand_of_decode hd draw s).trans hexec, hkeep.inputs, hkeep.outputs⟩
    | error e => exact ⟨s, ⟨.errIllegal, [], none⟩, by simp [takeEvent, takeCommand, hd], rfl, rfl⟩

/-- Settles O11: a step always answers and keeps the configuration, and taking an event gives one output. -/
theorem everyEventHasExactlyOneStep : Obligations.EveryEventHasExactlyOneStep := by
  refine ⟨fun s => ?_, fun s e rest hin => ?_⟩
  · obtain ⟨t, ht⟩ := step_total s
    exact ⟨t, ht, step_cfg ht⟩
  · obtain ⟨u, o, htake, hinputs, houtputs⟩ := takeEvent_emits e { s with inputs := rest }
    exact ⟨u.emitOutput o, o, (step_of_inputs hin).trans htake, hinputs, congrArg (· ++ [o]) houtputs⟩

/-! ### The priority of the conditions (60_exceptions.md R201) -/

/-- The check of the ID comes first in every command. -/
theorem raises_errId {s : State} {i : Instr} (h : IdOutOfRange s i) : Raises i s .errId := by
  cases i with
  | ovf t => exact if_pos (by simpa [State.validTmr, IdOutOfRange] using h)
  | rdreg id r => exact if_pos (by simpa using (rdregIdOutOfRange_iff s id r).1 h)
  | edge c | openCh c | close c | read c | clear c | setwm c | chreset c =>
    exact if_pos (by simpa [State.validChan, IdOutOfRange] using h)

/-- What is to show of a command whose ID is in range: it ends with one output, its status is the first that applies,
and a status other than OK and DROPPED changes nothing. -/
def EndsByPriority (i : Instr) (s : State) : Prop :=
  ∃ t o, exec i s = .next t ∧ t.outputs = s.outputs ++ [o] ∧ StatusOfInRange s i o.status
    ∧ (o.status ≠ .ok → o.status ≠ .dropped → Raises i s o.status)

theorem EndsByPriority.of_raises {i : Instr} {s : State} {st : Status} (h : Raises i s st)
    (hst : StatusOfInRange s i st) : EndsByPriority i s :=
  ⟨_, ⟨st, [], none⟩, h, rfl, hst, fun _ _ => h⟩

theorem EndsByPriority.of_exec {i : Instr} {s u : State} {o : StepOutput} (h : exec i s = .next (u.emitOutput o))
    (ho : o.status = .ok ∨ o.status = .dropped) (hst : StatusOfInRange s i o.status) : EndsByPriority i s :=
  ⟨_, o, h, (completes_of_exec h).outputs, hst, fun hok hdropped => absurd ho (not_or.2 ⟨hok, hdropped⟩)⟩

/-- An EDGE of an unarmed channel is ignored, whatever its value. -/
theorem raises_ignored {s : State} {c : Nat} {raw : Arg} (hc : c < s.cfg.numCh) (ha : (s.chan c).armed = false) :
    Raises (.edge c raw) s .ignored := by
  simp [Raises, exec, execEdge, State.validChan, hc, ha]

/-- An EDGE of an armed channel whose value its timer cannot latch raises ERR_RANGE. -/
theorem raises_errRange {s : State} {c : Nat} {raw : Arg} (hc : c < s.cfg.numCh) (ha : (s.chan c).armed = true)
    (hr : s.cfg.modOf (s.cfg.tmrOf c) ≤ raw.toNat) : Raises (.edge c raw) s .errRange := by
  simp [Raises, exec, execEdge, State.validChan, State.rawInRange, hc, ha, Nat.not_lt.2 hr]

/-- An EDGE ends by the first of its conditions: unarmed, out of range, queue full (60_exceptions.md R201). -/
theorem edge_endsByPriority {s : State} {c : Nat} (hc : c < s.cfg.numCh) (raw : Arg) :
    EndsByPriority (.edge c raw) s := by
  cases ha : (s.chan c).armed with
  | false => exact .of_raises (raises_ignored hc ha) (.inl ⟨ha, rfl⟩)
  | true =>
    obtain hr | hr := Nat.lt_or_ge raw.toNat (s.cfg.modOf (s.cfg.tmrOf c))
    swap
    · exact .of_raises (raises_errRange hc ha hr) (.inr (.inl ⟨ha, hr, rfl⟩))
    cases hp : (s.chan c).prior with
    | false => exact .of_exec (exec_edge_idle hc ha hr hp) (.inl rfl) (.inr (.inr (.inr ⟨ha, hr, .inl hp, rfl⟩)))
    | true =>
      by_cases hf : (s.queue (s.cfg.qOf c)).occ = s.cfg.capOf (s.cfg.qOf c)
      · exact .of_exec (exec_edge_dropped hc ha hr hp hf) (.inr rfl) (.inr (.inr (.inl ⟨ha, hr, hp, hf, rfl⟩)))
      · have hok : (if s.queueFull (s.cfg.qOf c) then Status.dropped else .ok) = .ok := by simp [State.queueFull, hf]
        exact .of_exec (exec_edge_active hc ha hr hp) (.inl hok) (.inr (.inr (.inr ⟨ha, hr, .inr hf, hok⟩)))

/-- The draw alone decides how an OPEN of a channel in range ends (43_control.md R181). -/
theorem openCh_endsByPriority {s : State} {c : Nat} (hc : c < s.cfg.numCh) : EndsByPriority (.openCh c) s := by
  cases hd : s.initOk with
  | false =>
    have hraise : Raises (.openCh c) s .errInit := by simp [Raises, exec, execOpen, State.validChan, hc, hd]
    exact .of_raises hraise (.inl ⟨hd, rfl⟩)
  | true => exact .of_exec (exec_openCh hc hd) (.inl rfl) (.inr ⟨hd, rfl⟩)

/-- An RDREG whose ID is in range for the register's class answers the register (43_control.md R185). -/
theorem exec_rdreg {s : State} {id : Nat} {r : Reg} (h : ¬ RdregIdOutOfRange s id r) :
    exec (.rdreg id r) s = .next (s.emitOutput ⟨.ok, [s.regValue id r], none⟩) :=
  if_neg (by simpa [rdregIdOutOfRange_iff] using h)

/-- With its ID in range, only EDGE and OPEN can end with another status than OK. -/
theorem endsByPriority_of_inRange {s : State} {i : Instr} (h : ¬ IdOutOfRange s i) : EndsByPriority i s := by
  cases i with
  | edge c raw => exact edge_endsByPriority (Nat.not_le.1 h) raw
  | ovf t => exact .of_exec (exec_ovf (Nat.not_le.1 h)) (.inl rfl) rfl
  | openCh c => exact openCh_endsByPriority (Nat.not_le.1 h)
  | close c => exact .of_exec (exec_close (Nat.not_le.1 h)) (.inl rfl) rfl
  | read c max => exact .of_exec (exec_read (Nat.not_le.1 h) max) (.inl rfl) rfl
  | clear c => exact .of_exec (exec_clear (Nat.not_le.1 h)) (.inl rfl) rfl
  | setwm c value => exact .of_exec (exec_setwm (Nat.not_le.1 h) value) (.inl rfl) rfl
  | rdreg id r => exact .of_exec (exec_rdreg h) (.inl rfl) rfl
  | chreset c => exact .of_exec (exec_chreset (Nat.not_le.1 h)) (.inl rfl) rfl

/-- Settles O12: the decoder decides first, then the check of the ID, then the command's own conditions. -/
theorem statusFollowsThePriority : Obligations.StatusFollowsThePriority := by
  refine ⟨fun s w draw rest e hin hdec => ?_, fun s i => raises_errId, fun s i => endsByPriority_of_inRange⟩
  exact (illegalWordAnswersErrIllegal s w draw rest hin).1 ((rejectsExactlyTheIllegalWords w).1 ⟨e, hdec⟩)

end Sys2Proof.Machine

/-! The statements about Reset: the state it leaves, and what holds in the reset state (70_reset_and_hazards.md R230,
R231). -/

namespace Sys2Proof.Machine

/-! ### The reset state (70_reset_and_hazards.md R231) -/

/-- After reset every tally is 0: the counts and the snapshots are 0 alike. -/
@[simp] theorem tally_resetWith (g : Cfg) (c : Nat) : (State.resetWith g).tally c = 0 := by
  cases hm : g.ovfMode with
  | snapshot => simp [tally_snapshot (s := State.resetWith g) hm, Channel.reset]
  | sharedReset => simp [tally_sharedReset (s := State.resetWith g) hm]

/-- The first OVF after reset counts 1: a count of at least one bit holds it (41_overflow_tracker.md R130). -/
theorem ovf_resetWith {g : Cfg} (hg : g.wf = true) {tm : Nat} (ht : tm < g.numTmr) :
    ∃ t, Completes (.ovf tm) (State.resetWith g) ⟨.ok, [], none⟩ t ∧ (t.trkAt tm).toNat = 1 := by
  obtain ⟨-, hovf⟩ := ovfCountsOneOverflow (State.resetWith g) tm (resetWith_inv hg)
  obtain ⟨t, hcomp, hcount, -⟩ := hovf ht
  have hbits : 1 < 2 ^ g.wTrk := Nat.one_lt_two_pow (Nat.one_le_iff_ne_zero.1 (Cfg.wf_widths hg).2.1)
  refine ⟨t, hcomp, hcount.trans ?_⟩
  simpa using Nat.mod_eq_of_lt hbits

/-- Settles O10, from the reset value of each channel, queue and count. -/
theorem stateAfterReset : Obligations.StateAfterReset := by
  refine ⟨fun g hg => ⟨fun c hc => ?_, fun k hk => ?_, fun tm => ovf_resetWith hg⟩, Cfg.default, by decide, rfl⟩
  · have hchan := State.resetWith_chan g c
    have hunarmed : ((State.resetWith g).chan c).armed = false := congrArg Channel.armed hchan
    exact ⟨congrArg Channel.prior hchan, hunarmed, congrArg Channel.expect hchan, tally_resetWith g c,
      fun raw => raises_ignored hc hunarmed⟩
  · have hqueue := State.resetWith_queue g k
    exact ⟨content_eq_nil (congrArg Queue.occ hqueue),
      (congrArg (·.wm.toNat) hqueue).trans (wmDefault_toNat hg hk)⟩

/-! ### The Reset event (70_reset_and_hazards.md R230) -/

/-- The Reset event puts every overflow count at its reset value. -/
@[simp] theorem resetElements_trkAt (s : State) (tm : Nat) : (resetElements s).trkAt tm = 0 :=
  State.resetWith_trkAt s.cfg tm

/-- The Reset event leaves the reset elements and answers `(OK, [])` with no NOTIFY. -/
theorem step_of_reset {s : State} {rest : List Event} (h : s.inputs = .reset :: rest) :
    step s = .next ((resetElements { s with inputs := rest }).emitOutput ⟨.ok, [], none⟩) :=
  step_of_inputs h

/-- Settles O9, by the value the Reset event puts in each channel, count and queue. -/
theorem resetEventPutsResetValues : Obligations.ResetEventPutsResetValues := by
  intro s rest hg hin
  refine ⟨_, step_of_reset hin, rfl, rfl, rfl, List.length_replicate, List.length_replicate, by simp [resetElements],
    fun c _ => ?_, fun tm _ => by simp, fun k hk => ?_⟩
  · rw [State.emitOutput_chan, resetElements_chan]
    exact ⟨rfl, rfl, rfl, rfl, rfl⟩
  · rw [State.emitOutput_queue, resetElements_queue]
    exact ⟨rfl, rfl, wmDefault_toNat hg hk, rfl, rfl⟩

end Sys2Proof.Machine
